-- ==== Sys2Proof/Word.lean ====
section
/-!
DEFINITION. The word types of the AZPR CPU (spec/00_scope.md R5, R8; spec/10_state.md R20, R25).
-/

namespace Sys2Proof

/-- A general register, a control register, an address, a memory word (R5: "32 bits"). -/
abbrev Word := BitVec 32

/-- A quarter of a word: the unit in which the model's memory list is kept (log 2). -/
abbrev Byte := BitVec 8

/-- A word address: bits 31:2 of a byte address (R25, R31, R32, R45, R78). -/
abbrev WordAddr := BitVec 30

/-- The number of a general register, `r0` to `r31` (R20). -/
abbrev Reg := Fin 32

/-- The number of a control register, `c0` to `c31` (R27). -/
abbrev CtrlNum := Fin 32

/-- The 16-bit Immediate field of format R2I (R106). -/
abbrev Imm := BitVec 16

end Sys2Proof
end

