-- ==== Sys2Proof/Syntax.lean ====
section
/-!
DEFINITION. The 28 instructions, one constructor per row of spec/opcode_table.json, with the operands in the order of
their fields and of the assembler (spec/30_encoding.md R101, R121).
-/

namespace Sys2Proof

/-- One instruction. Register operands are named `ra`, `rb`, `rc` after their fields; a control register number is a
`CtrlNum` (R115); immediates keep all 16 bits of the field. -/
inductive Instr where
  -- logic (40_logical.md)
  | andr (ra rb rc : Reg)
  | andi (ra rb : Reg) (imm : Imm)
  | orr (ra rb rc : Reg)
  | ori (ra rb : Reg) (imm : Imm)
  | xorr (ra rb rc : Reg)
  | xori (ra rb : Reg) (imm : Imm)
  -- arithmetic (41_arithmetic.md)
  | addsr (ra rb rc : Reg)
  | addsi (ra rb : Reg) (imm : Imm)
  | addur (ra rb rc : Reg)
  | addui (ra rb : Reg) (imm : Imm)
  | subsr (ra rb rc : Reg)
  | subur (ra rb rc : Reg)
  -- shift (42_shift.md)
  | shrlr (ra rb rc : Reg)
  | shrli (ra rb : Reg) (imm : Imm)
  | shllr (ra rb rc : Reg)
  | shlli (ra rb : Reg) (imm : Imm)
  -- branch (43_branch.md)
  | be (ra rb : Reg) (imm : Imm)
  | bne (ra rb : Reg) (imm : Imm)
  | bsgt (ra rb : Reg) (imm : Imm)
  | bugt (ra rb : Reg) (imm : Imm)
  | jmp (ra : Reg)
  | call (ra : Reg)
  -- memory access (44_memory_access.md)
  | ldw (ra rb : Reg) (imm : Imm)
  | stw (ra rb : Reg) (imm : Imm)
  -- trap (45_trap.md)
  | trap
  -- privileged (46_privileged.md)
  | rdcr (ca : CtrlNum) (rb : Reg)
  | wrcr (ra : Reg) (cb : CtrlNum)
  | exrt
  deriving DecidableEq, Repr

end Sys2Proof
end

