-- ==== Sys2Proof/Decode.lean ====
section
/-!
DEFINITION. The decoder, total on any bytes and rejecting by name, and the encoder, both from the formats and the
opcode map of spec/30_encoding.md (R100 to R109, R116, R117). The 32 bits of an instruction are a word (R80); the order
of its four bytes is the model's own (log 2).
-/

namespace Sys2Proof

/-! ### Bytes of a word -/

/-- A word from its four bytes, the one at the lowest address first: that byte is bits 7:0 (log 2). -/
def wordOfBytes (b0 b1 b2 b3 : Byte) : Word := b3 ++ b2 ++ b1 ++ b0

/-- Byte `k` of a word, the one at address + k (log 2). -/
def byteOfWord (w : Word) (k : Nat) : Byte := w.extractLsb' (8 * k) 8

/-- The four bytes of a word in the order of their addresses (log 2). -/
def bytesOfWord (w : Word) : List Byte := [byteOfWord w 0, byteOfWord w 1, byteOfWord w 2, byteOfWord w 3]

/-! ### Fields (R107) -/

/-- OP, bits 31:26. -/
def opField (w : Word) : BitVec 6 := w.extractLsb' 26 6

/-- The register number a 5-bit field holds. -/
def regOfBits (b : BitVec 5) : Reg := ⟨b.toNat, b.isLt⟩

/-- The 5-bit field that holds a register number. -/
def bitsOfReg (r : Reg) : BitVec 5 := BitVec.ofNat 5 r.val

/-- Ra, bits 25:21. -/
def raField (w : Word) : Reg := regOfBits (w.extractLsb' 21 5)

/-- Rb, bits 20:16. -/
def rbField (w : Word) : Reg := regOfBits (w.extractLsb' 16 5)

/-- Rc, bits 15:11. -/
def rcField (w : Word) : Reg := regOfBits (w.extractLsb' 11 5)

/-- Immediate, bits 15:0. -/
def immField (w : Word) : Imm := w.extractLsb' 0 16

/-! ### Decoding (R109) -/

/-- What the decoder answers. -/
inductive Decoded where
  /-- An instruction of R108 with its reserved field zero. -/
  | instr (i : Instr)
  /-- OP 0x1C to 0x3F: the word raises UndefinedInstruction (R116). -/
  | undefinedInstruction
  /-- An assigned OP with a reserved field that is not zero: refused (R117). -/
  | reservedField
  /-- Fewer than four bytes: not an instruction word (R100). -/
  | truncated
  deriving DecidableEq, Repr

/-- Format R3: bits 10:0 reserved (R102). -/
def decodeR3 (w : Word) (mk : Reg → Reg → Reg → Instr) : Decoded :=
  if w.extractLsb' 0 11 = 0#11 then .instr (mk (raField w) (rbField w) (rcField w)) else .reservedField

/-- Format R2: bits 15:0 reserved (R103). -/
def decodeR2 (w : Word) (mk : Fin 32 → Fin 32 → Instr) : Decoded :=
  if w.extractLsb' 0 16 = 0#16 then .instr (mk (raField w) (rbField w)) else .reservedField

/-- Format R1: bits 20:0 reserved (R104). -/
def decodeR1 (w : Word) (mk : Reg → Instr) : Decoded :=
  if w.extractLsb' 0 21 = 0#21 then .instr (mk (raField w)) else .reservedField

/-- Format R0: bits 25:0 reserved (R105). -/
def decodeR0 (w : Word) (i : Instr) : Decoded :=
  if w.extractLsb' 0 26 = 0#26 then .instr i else .reservedField

/-- Format R2I: no reserved field (R106). -/
def decodeR2I (w : Word) (mk : Reg → Reg → Imm → Instr) : Decoded :=
  .instr (mk (raField w) (rbField w) (immField w))

/-- The decoder of a 32-bit word: OP selects the instruction and its format (R108, R109). -/
def decodeWord (w : Word) : Decoded :=
  match (opField w).toNat with
  | 0x00 => decodeR3 w .andr
  | 0x01 => decodeR2I w .andi
  | 0x02 => decodeR3 w .orr
  | 0x03 => decodeR2I w .ori
  | 0x04 => decodeR3 w .xorr
  | 0x05 => decodeR2I w .xori
  | 0x06 => decodeR3 w .addsr
  | 0x07 => decodeR2I w .addsi
  | 0x08 => decodeR3 w .addur
  | 0x09 => decodeR2I w .addui
  | 0x0A => decodeR3 w .subsr
  | 0x0B => decodeR3 w .subur
  | 0x0C => decodeR3 w .shrlr
  | 0x0D => decodeR2I w .shrli
  | 0x0E => decodeR3 w .shllr
  | 0x0F => decodeR2I w .shlli
  | 0x10 => decodeR2I w .be
  | 0x11 => decodeR2I w .bne
  | 0x12 => decodeR2I w .bsgt
  | 0x13 => decodeR2I w .bugt
  | 0x14 => decodeR1 w .jmp
  | 0x15 => decodeR1 w .call
  | 0x16 => decodeR2I w .ldw
  | 0x17 => decodeR2I w .stw
  | 0x18 => decodeR0 w .trap
  | 0x19 => decodeR2 w .rdcr
  | 0x1A => decodeR2 w .wrcr
  | 0x1B => decodeR0 w .exrt
  | _ => .undefinedInstruction

/-- The decoder on bytes in the order of their addresses; bytes after the fourth are not looked at. -/
def decode : List Byte → Decoded
  | b0 :: b1 :: b2 :: b3 :: _ => decodeWord (wordOfBytes b0 b1 b2 b3)
  | _ => .truncated

/-! ### Encoding -/

/-- Format R3 (R102). -/
def encodeR3 (op : BitVec 6) (ra rb rc : Fin 32) : Word :=
  op ++ bitsOfReg ra ++ bitsOfReg rb ++ bitsOfReg rc ++ 0#11

/-- Format R2 (R103). -/
def encodeR2 (op : BitVec 6) (ra rb : Fin 32) : Word := op ++ bitsOfReg ra ++ bitsOfReg rb ++ 0#16

/-- Format R1 (R104). -/
def encodeR1 (op : BitVec 6) (ra : Fin 32) : Word := op ++ bitsOfReg ra ++ 0#21

/-- Format R0 (R105). -/
def encodeR0 (op : BitVec 6) : Word := op ++ 0#26

/-- Format R2I (R106). -/
def encodeR2I (op : BitVec 6) (ra rb : Fin 32) (imm : Imm) : Word := op ++ bitsOfReg ra ++ bitsOfReg rb ++ imm

/-- The word of an instruction (R108). -/
def encodeWord : Instr → Word
  | .andr ra rb rc => encodeR3 0x00 ra rb rc
  | .andi ra rb imm => encodeR2I 0x01 ra rb imm
  | .orr ra rb rc => encodeR3 0x02 ra rb rc
  | .ori ra rb imm => encodeR2I 0x03 ra rb imm
  | .xorr ra rb rc => encodeR3 0x04 ra rb rc
  | .xori ra rb imm => encodeR2I 0x05 ra rb imm
  | .addsr ra rb rc => encodeR3 0x06 ra rb rc
  | .addsi ra rb imm => encodeR2I 0x07 ra rb imm
  | .addur ra rb rc => encodeR3 0x08 ra rb rc
  | .addui ra rb imm => encodeR2I 0x09 ra rb imm
  | .subsr ra rb rc => encodeR3 0x0A ra rb rc
  | .subur ra rb rc => encodeR3 0x0B ra rb rc
  | .shrlr ra rb rc => encodeR3 0x0C ra rb rc
  | .shrli ra rb imm => encodeR2I 0x0D ra rb imm
  | .shllr ra rb rc => encodeR3 0x0E ra rb rc
  | .shlli ra rb imm => encodeR2I 0x0F ra rb imm
  | .be ra rb imm => encodeR2I 0x10 ra rb imm
  | .bne ra rb imm => encodeR2I 0x11 ra rb imm
  | .bsgt ra rb imm => encodeR2I 0x12 ra rb imm
  | .bugt ra rb imm => encodeR2I 0x13 ra rb imm
  | .jmp ra => encodeR1 0x14 ra
  | .call ra => encodeR1 0x15 ra
  | .ldw ra rb imm => encodeR2I 0x16 ra rb imm
  | .stw ra rb imm => encodeR2I 0x17 ra rb imm
  | .trap => encodeR0 0x18
  | .rdcr ca rb => encodeR2 0x19 ca rb
  | .wrcr ra cb => encodeR2 0x1A ra cb
  | .exrt => encodeR0 0x1B

/-- The bytes of an instruction in the order of their addresses (log 2). -/
def encode (i : Instr) : List Byte := bytesOfWord (encodeWord i)

/-! ### The opcode table (R108, R117) -/

/-- The value of OP that selects an instruction, as R108 lists it. -/
def Instr.opcode : Instr → BitVec 6
  | .andr .. => 0x00#6
  | .andi .. => 0x01#6
  | .orr .. => 0x02#6
  | .ori .. => 0x03#6
  | .xorr .. => 0x04#6
  | .xori .. => 0x05#6
  | .addsr .. => 0x06#6
  | .addsi .. => 0x07#6
  | .addur .. => 0x08#6
  | .addui .. => 0x09#6
  | .subsr .. => 0x0A#6
  | .subur .. => 0x0B#6
  | .shrlr .. => 0x0C#6
  | .shrli .. => 0x0D#6
  | .shllr .. => 0x0E#6
  | .shlli .. => 0x0F#6
  | .be .. => 0x10#6
  | .bne .. => 0x11#6
  | .bsgt .. => 0x12#6
  | .bugt .. => 0x13#6
  | .jmp .. => 0x14#6
  | .call .. => 0x15#6
  | .ldw .. => 0x16#6
  | .stw .. => 0x17#6
  | .trap => 0x18#6
  | .rdcr .. => 0x19#6
  | .wrcr .. => 0x1A#6
  | .exrt => 0x1B#6

/-- How many low bits of an instruction's word are its reserved field: R3 10:0, R2 15:0, R1 20:0, R0 25:0, R2I none (R117). -/
def Instr.reservedWidth : Instr → Nat
  | .andr .. => 11
  | .andi .. => 0
  | .orr .. => 11
  | .ori .. => 0
  | .xorr .. => 11
  | .xori .. => 0
  | .addsr .. => 11
  | .addsi .. => 0
  | .addur .. => 11
  | .addui .. => 0
  | .subsr .. => 11
  | .subur .. => 11
  | .shrlr .. => 11
  | .shrli .. => 0
  | .shllr .. => 11
  | .shlli .. => 0
  | .be .. => 0
  | .bne .. => 0
  | .bsgt .. => 0
  | .bugt .. => 0
  | .jmp .. => 21
  | .call .. => 21
  | .ldw .. => 0
  | .stw .. => 0
  | .trap => 26
  | .rdcr .. => 16
  | .wrcr .. => 16
  | .exrt => 26

/-! ### The opcode table's own numbering -/

/-- The 32-bit word that `nbits` bits of a table row stand for, the bits above them zero. -/
def tableWord (nbits w : Nat) : Word := BitVec.ofNat 32 (w % 2 ^ nbits)

/-- The instruction the decoder reads from a table row's bits, laid out in memory as the model stores a word. -/
def decodeTableWord (nbits w : Nat) : Option Instr :=
  match decode (bytesOfWord (tableWord nbits w)) with
  | .instr i => some i
  | .undefinedInstruction => none
  | .reservedField => none
  | .truncated => none

end Sys2Proof
end

