-- ==== Sys2Proof/Config.lean ====
section
/-!
DEFINITION. What an implementation of the AZPR system fixes, and the free values: the parameters of
spec/00_scope.md R6 and the inputs of spec/60_exceptions.md section 7 and R207. A free value is an `opaque`
constant with no body: every claim holds whatever it is.
-/

namespace Sys2Proof

/-- What may drive an interrupt request line: nothing, or one of the three device flags (60_exceptions.md R204;
92_eei_decisions.md, `IRQ_MAP`: "any map of lines 0..7 to {Timer I, UART RxI, UART TxI, 0}"). -/
inductive IrqSource where
  | constantZero
  | timerI
  | uartRxI
  | uartTxI
  deriving DecidableEq, Repr, Inhabited

namespace Config

/-- Bytes of Boot ROM; also the value of control register 0x1d (20_memory.md R73; 10_state.md R36). -/
abbrev romSize : Nat := 4096

/-- Bytes of scratch pad memory; also the value of control register 0x1e (20_memory.md R75; 10_state.md R37). -/
abbrev spmSize : Nat := 32768

/-- Bytes of one bus window (20_memory.md R72). -/
abbrev windowSize : Nat := 0x20000000

/-- Free value: CPU Information, control register 0x1f (10_state.md R38, U18). -/
opaque cpuInfo : Word

/-- Free value: whether the open parameter `CALL_LINK_OFFSET` is 8; if not, it is 4 (43_branch.md R167, U14). -/
opaque callLinkIsEight : Bool

/-- `CALL_LINK_OFFSET`: 4 or 8 (43_branch.md R167). -/
def callLinkOffset : Word := if callLinkIsEight then 8 else 4

/-- Free value: the open parameter `IRQ_MAP`, which device flag drives which request line (60_exceptions.md R204, U15). -/
opaque irqSource : Fin 8 → IrqSource

/-- Free value: the byte that the ROM image or the scratch pad memory holds at an address before anything is listed
there (10_state.md R49; 20_memory.md R73, R75, U8: "any value (fixed for the run)"). -/
opaque initialByte : Nat → Byte

/-- Free value: how many boundaries an interrupt that has just become deliverable waits (60_exceptions.md R207, U16).
It is finite, which is the fairness R207 assumes. -/
opaque irqDelay : Nat → Nat

/-- Free value: how many boundaries pass before the next batch of timer steps (60_exceptions.md R225, U26). -/
opaque timerGap : Nat → Nat

/-- Free value: how many timer steps a batch holds beyond its first (60_exceptions.md R225, U26). -/
opaque timerExtraSteps : Nat → Nat

/-- Free value: the last byte the UART receives at a boundary, if any arrives (60_exceptions.md R235). -/
opaque uartReceives : Nat → Option Byte

/-- Free value: whether a transmission in progress ends at a boundary (60_exceptions.md R235). -/
opaque uartTransmitEnds : Nat → Bool

/-- Free value: the level of the four connected input pins (60_exceptions.md R240, R242). -/
opaque gpioInputPins : Nat → BitVec 4

/-- Free value: the level the outside drives on the sixteen input/output pins (60_exceptions.md R240, R244). -/
opaque gpioInoutPins : Nat → BitVec 16

end Config

end Sys2Proof
end

