-- ==== Sys2Proof/Machine/State.lean ====
section
/-!
DEFINITION. The state of the machine as plain data: the CPU (spec/10_state.md), the memories (20_memory.md) and the three
devices (60_exceptions.md section 7); the reasons a step can stop; the state after reset (10_state.md R50).
-/

namespace Sys2Proof.Machine

/-! ### CPU -/

/-- Execution mode, the EM bit: kernel = 0, user = 1 (10_state.md R28). -/
inductive Mode where
  | kernel
  | user
  deriving DecidableEq, Repr

/-- The two fields of Status and of Previous Status (10_state.md R28, R29). -/
structure Status where
  /-- Interrupt Enable, bit 1. -/
  ie : Bool
  /-- Execution Mode, bit 0. -/
  em : Mode
  deriving DecidableEq, Repr

/-- Exception Code (10_state.md R33). -/
structure ExcCode where
  /-- Delay Slot Flag, bit 3. -/
  d : Bool
  /-- CODE, bits 2:0. -/
  code : BitVec 3
  deriving DecidableEq, Repr

/-- The causes of an exception entry (60_exceptions.md R200). -/
inductive Cause where
  | externalInterrupt
  | undefinedInstruction
  | arithmeticOverflow
  | addressMissAlign
  | trap
  | privilegeViolation
  deriving DecidableEq, Repr

/-- The pending branch (10_state.md R45): the next instruction stands in no delay slot; or in the slot of a branch that
was not taken (`slot none`) or goes to a word address (`slot (some t)`). -/
inductive Pending where
  | none
  | slot (target : Option WordAddr)
  deriving DecidableEq, Repr

/-! ### Memory -/

/-- ROM and SPM contents as (byte address, byte) pairs in canonical form: addresses strictly rising, only addresses that
ROM or SPM has. An unlisted address holds no listed byte; what it then reads as is `unlistedByte` (log 2, 3). -/
abbrev Memory := List Host.Cell

/-- The byte addresses that Boot ROM (20_memory.md R73) or scratch pad memory (R75) has. -/
def isBacked (a : Nat) : Bool :=
  a < Config.romSize || (Config.windowSize ≤ a && a < Config.windowSize + Config.spmSize)

/-- The addresses of a list are strictly rising. -/
def strictlyRising : List Nat → Bool
  | [] => true
  | [_] => true
  | a :: b :: rest => a < b && strictlyRising (b :: rest)

/-- The canonical form of memory. -/
def Memory.wf (m : Memory) : Bool := strictlyRising (m.map Prod.fst) && m.all fun c => isBacked c.1

/-! ### Devices -/

/-- The Timer's registers (60_exceptions.md R220 to R224). -/
structure Timer where
  /-- Control, P, bit 1. -/
  periodic : Bool
  /-- Control, S, bit 0. -/
  start : Bool
  /-- Interrupt, I, bit 0. -/
  irq : Bool
  /-- Expiration, EXPR. -/
  expr : Word
  /-- Counter, COUNTER. -/
  counter : Word
  deriving DecidableEq, Repr

/-- The UART's registers and its transmission in progress (60_exceptions.md R230 to R235). -/
structure Uart where
  /-- Status, TxI, bit 1. -/
  txI : Bool
  /-- Status, RxI, bit 0. -/
  rxI : Bool
  /-- Data as read: the last received byte. -/
  rx : Byte
  /-- The byte being sent, if a transmission is in progress. -/
  tx : Option Byte
  deriving DecidableEq, Repr

/-- The GPIO block's registers and pin levels (60_exceptions.md R240 to R245). -/
structure Gpio where
  /-- Input Port: the level of the connected input pins. -/
  inPins : BitVec 4
  /-- Output Port. -/
  out : Word
  /-- Inout Port: the value driven on output pins. -/
  inoutData : Word
  /-- Inout Direction: 0 input, 1 output. -/
  inoutDir : Word
  /-- The level that the outside drives on the connected input/output pins. -/
  inoutPins : BitVec 16
  deriving DecidableEq, Repr

/-- The model's own counters, which select the free values of Config (log 30). -/
structure Env where
  /-- Boundaries passed so far; the argument of every free input. -/
  clock : Nat
  /-- Boundaries a deliverable interrupt still waits (log 18). -/
  irqWait : Nat
  /-- Boundaries until the next batch of timer steps (log 27). -/
  timerWait : Nat
  deriving DecidableEq, Repr

/-- The registers of the Timer by offset (60_exceptions.md R220). -/
inductive TimerReg where
  | control
  | interrupt
  | expiration
  | counter
  deriving DecidableEq, Repr

/-- The registers of the UART by offset (60_exceptions.md R230). -/
inductive UartReg where
  | status
  | data
  deriving DecidableEq, Repr

/-- The registers of the GPIO block by offset (60_exceptions.md R240). -/
inductive GpioReg where
  | input
  | output
  | inout
  | direction
  deriving DecidableEq, Repr

/-- What answers at a byte address of the bus (20_memory.md R72 to R76). -/
inductive Location where
  /-- Boot ROM, below `ROM_SIZE`. -/
  | rom
  /-- The ROM window beyond `ROM_SIZE`: no responder. -/
  | romHole
  /-- Scratch pad memory. -/
  | spm
  | timer (r : TimerReg)
  | uart (r : UartReg)
  | gpio (r : GpioReg)
  /-- Any other address: no responder. -/
  | unmapped
  deriving DecidableEq, Repr

/-! ### The whole state -/

/-- The state of the machine (10_state.md, "The state, in one table"). -/
structure State where
  /-- General registers (R20, R21). -/
  gpr : Vector Word 32
  /-- Program counter (R25); that bits 1:0 are 00 is an invariant of the machine. -/
  pc : Word
  /-- Status, control register 0x00 (R28). -/
  status : Status
  /-- Previous Status, 0x01 (R29). -/
  prevStatus : Status
  /-- Exception Program Counter, 0x03, bits 31:2 (R31). -/
  epc : WordAddr
  /-- Exception Vector, 0x04, bits 31:2 (R32). -/
  expVec : WordAddr
  /-- Exception Code, 0x05 (R33). -/
  excCode : ExcCode
  /-- Interrupt Mask, 0x06 (R34). -/
  intMask : BitVec 8
  /-- Pending branch (R45). -/
  pending : Pending
  /-- ROM and SPM (R49). -/
  mem : Memory
  /-- Byte addresses of the words that an STW of this run has written, strictly rising (20_memory.md R90; log 24, 41). -/
  stored : List Nat
  /-- Timer. -/
  timer : Timer
  /-- UART. -/
  uart : Uart
  /-- General Purpose I/O. -/
  gpio : Gpio
  /-- The model's own counters. -/
  env : Env
  deriving DecidableEq, Repr

/-! ### Reasons to stop -/

/-- The machine is stuck. -/
inductive Fault where
  /-- Raised by the fetch: no responder at the program counter, "the access has no step and the CPU is stuck"
  (20_memory.md R74). Safe: the model stops where the spec says the machine makes no progress. -/
  | fetchNoResponder (a : Word)
  /-- Raised by LDW: no responder at the address (20_memory.md R74). Safe, as above. -/
  | loadNoResponder (a : Word)
  deriving DecidableEq, Repr

/-- The spec gives the program no meaning. -/
inductive Refusal where
  /-- An instruction that has no meaning yet. Raised by an arm of exec only. Safe. -/
  | notModelled (mnemonic : String)
  /-- Raised by the fetch: an assigned OP with a nonzero reserved field (30_encoding.md R117). Safe. -/
  | reservedField (w : Word)
  /-- Raised by the fetch: the word was written by an STW of this run (20_memory.md R90). Safe. -/
  | fetchOfStoredWord (a : Word)
  /-- Raised by BE, BNE, BSGT, BUGT, JMP, CALL in a delay slot (43_branch.md R168). Safe. -/
  | branchInDelaySlot
  /-- Raised by STW into the ROM window (20_memory.md R91). Safe. -/
  | storeToRom (a : Word)
  /-- Raised by STW where there is no responder (20_memory.md R74). Safe. -/
  | storeNoResponder (a : Word)
  /-- Raised by STW to the GPIO Input Port (60_exceptions.md R242). Safe. -/
  | gpioInputPortWrite
  /-- Raised by STW to UART Data while a transmission is in progress (60_exceptions.md R235). Safe. -/
  | uartTransmitBusy
  /-- Raised by RDCR and WRCR in kernel mode: number 0x08 to 0x1c (10_state.md R39). Safe. -/
  | unimplementedControlRegister (n : CtrlNum)
  /-- Raised by WRCR in kernel mode: a read-only register (10_state.md R41). Safe. -/
  | readOnlyControlRegister (n : CtrlNum)
  deriving DecidableEq, Repr

/-- The outcome of a step. -/
abbrev Result := Host.Outcome State Fault Refusal

/-! ### Reset -/

/-- The machine right after reset (10_state.md R50; 60_exceptions.md R221, R231, R241; 70_reset_and_hazards.md R261). The
general registers are the model's choice (log 1), as are `uart.tx` (log 37) and the model's own counters (log 30). -/
def State.reset : State where
  gpr := Vector.replicate 32 0#32
  pc := 0#32
  status := { ie := false, em := .kernel }
  prevStatus := { ie := false, em := .kernel }
  epc := 0#30
  expVec := 0#30
  excCode := { d := false, code := 0#3 }
  intMask := 0xFF#8
  pending := .none
  mem := []
  stored := []
  timer := { periodic := false, start := false, irq := false, expr := 0#32, counter := 0#32 }
  uart := { txI := false, rxI := false, rx := 0#8, tx := none }
  gpio := { inPins := 0#4, out := 0#32, inoutData := 0#32, inoutDir := 0#32, inoutPins := 0#16 }
  env := { clock := 0, irqWait := 0, timerWait := 0 }

end Sys2Proof.Machine
end

