-- ==== Sys2Proof/Machine/Devices.lean ====
section
/-!
DEFINITION. The three devices: their own steps, what a CPU read of a register answers, what a CPU write does
(spec/60_exceptions.md section 7), and the device steps that fall before one CPU step (spec/70_reset_and_hazards.md R269).
-/

namespace Sys2Proof.Machine

/-! ### Timer (R220 to R225) -/

/-- One clock of the timer (R225). -/
def timerStep (t : Timer) : Timer :=
  if t.start && t.counter == t.expr then
    { t with irq := true, counter := 0#32, start := t.periodic }
  else if t.start then
    { t with counter := t.counter + 1#32 }
  else t

/-- `n` clocks of the timer. -/
def timerSteps : Nat → Timer → Timer
  | 0, t => t
  | n + 1, t => timerSteps n (timerStep t)

/-- A CPU read of a timer register: the fields at their bit positions, reserved bits 0 (R222 to R225). -/
def timerRead (t : Timer) : TimerReg → Word
  | .control => 0#30 ++ BitVec.ofBool t.periodic ++ BitVec.ofBool t.start
  | .interrupt => 0#31 ++ BitVec.ofBool t.irq
  | .expiration => t.expr
  | .counter => t.counter

/-- A CPU write of a timer register (R225). -/
def timerWrite (t : Timer) (r : TimerReg) (v : Word) : Timer :=
  match r with
  | .control => { t with periodic := v.getLsbD 1, start := v.getLsbD 0 }
  | .interrupt => { t with irq := v.getLsbD 0 }
  | .expiration => { t with expr := v }
  | .counter => { t with counter := v }

/-! ### UART (R230 to R235) -/

/-- A byte arrives (R235). -/
def uartReceive (u : Uart) (b : Byte) : Uart := { u with rx := b, rxI := true }

/-- The transmission in progress ends, if there is one (R235). -/
def uartTransmitEnd (u : Uart) : Uart :=
  match u.tx with
  | some _ => { u with tx := none, txI := true }
  | none => u

/-- A CPU read of a UART register (R232, R234, R235). -/
def uartRead (u : Uart) : UartReg → Word
  | .status => 0#30 ++ BitVec.ofBool u.txI ++ BitVec.ofBool u.rxI
  | .data => 0#24 ++ u.rx

/-- A CPU write of a UART register: Status sets both flags (R233), Data starts a transmission, which is refused while
another is in progress (R235). -/
def uartWrite (u : Uart) (r : UartReg) (v : Word) : Except Refusal Uart :=
  match r with
  | .status => .ok { u with txI := v.getLsbD 1, rxI := v.getLsbD 0 }
  | .data => if u.tx.isSome then .error .uartTransmitBusy else .ok { u with tx := some (v.extractLsb' 0 8) }

/-! ### GPIO (R240 to R245) -/

/-- The level of the 32 Inout Port bits: the value driven where the direction is output, the outside's level where it is
input; a bit with no pin behind it reads 0 as an input and the stored bit as an output (R244, R245, U25; log 29). -/
def inoutLevel (g : Gpio) : Word := (g.inoutData &&& g.inoutDir) ||| (g.inoutPins.setWidth 32 &&& ~~~g.inoutDir)

/-- A CPU read of a GPIO register (R242 to R245). -/
def gpioRead (g : Gpio) : GpioReg → Word
  | .input => g.inPins.setWidth 32
  | .output => g.out
  | .inout => inoutLevel g
  | .direction => g.inoutDir

/-- A CPU write of a GPIO register; a write of the Input Port is refused (R242). A write of the Inout Port keeps every bit, those
whose direction is input too, and such a bit is driven once its direction becomes output: R244 speaks of output pins only
(DESIGN CHOICE, log 42). -/
def gpioWrite (g : Gpio) (r : GpioReg) (v : Word) : Except Refusal Gpio :=
  match r with
  | .input => .error .gpioInputPortWrite
  | .output => .ok { g with out := v }
  | .inout => .ok { g with inoutData := v }
  | .direction => .ok { g with inoutDir := v }

/-! ### The device steps before one CPU step (R269; log 27, 28, 29, 39) -/

/-- The timer after the steps it takes at this boundary: none while `timerWait` counts down, then a batch of at least one. -/
def timerAtBoundary (e : Env) (t : Timer) : Timer :=
  if t.start then
    if e.timerWait = 0 then timerSteps (Config.timerExtraSteps e.clock + 1) t else t
  else t

/-- The UART after a transmission may have ended and a byte may have arrived at this boundary. -/
def uartAtBoundary (e : Env) (u : Uart) : Uart :=
  let u' := if u.tx.isSome && Config.uartTransmitEnds e.clock then uartTransmitEnd u else u
  match Config.uartReceives e.clock with
  | some b => uartReceive u' b
  | none => u'

/-- The GPIO block with the pin levels of this boundary. -/
def gpioAtBoundary (e : Env) (g : Gpio) : Gpio :=
  { g with inPins := Config.gpioInputPins e.clock, inoutPins := Config.gpioInoutPins e.clock }

/-- The model's counters after this boundary's device steps. -/
def envAtBoundary (e : Env) : Env :=
  { e with
    clock := e.clock + 1
    timerWait := if e.timerWait = 0 then Config.timerGap e.clock else e.timerWait - 1 }

/-- The device steps that fall between the last CPU step and this one: they change the devices and nothing of the CPU. -/
def deviceSteps (s : State) : State :=
  { s with
    timer := timerAtBoundary s.env s.timer
    uart := uartAtBoundary s.env s.uart
    gpio := gpioAtBoundary s.env s.gpio
    env := envAtBoundary s.env }

end Sys2Proof.Machine
end

