-- ==== Sys2Proof/Machine/Ops.lean ====
section
/-!
DEFINITION. The named operations over registers, memory, the bus and control flow, taking an exception and returning from
one (spec/00_scope.md R9; 20_memory.md; 43_branch.md R160; 60_exceptions.md R212; 46_privileged.md R189).
-/

namespace Sys2Proof.Machine

/-! ### General registers (10_state.md R20 to R22) -/

/-- `x[r]`; no register is hardwired (R21). -/
def readReg (s : State) (r : Reg) : Word := s.gpr[r]

/-- `x[r] <- v`. -/
def writeReg (s : State) (r : Reg) (v : Word) : State := { s with gpr := s.gpr.set r.val v r.isLt }

/-! ### Word addresses (10_state.md R25) -/

/-- The byte address `T : 00` of a word address. -/
def byteAddr (t : WordAddr) : Word := t ++ 0#2

/-- Bits 31:2 of a byte address. -/
def wordAddr (a : Word) : WordAddr := a.extractLsb' 2 30

/-! ### Memory bytes and words (20_memory.md R78, R79) -/

/-- What a ROM or SPM byte that is not listed reads as: a free value, fixed for the run (log 3). -/
def unlistedByte (a : Nat) : Byte := Config.initialByte a

/-- The byte at an address of ROM or SPM. -/
def readByte : Memory → Nat → Byte
  | [], a => unlistedByte a
  | (k, b) :: rest, a => if k = a then b else readByte rest a

/-- List a byte at an address, keeping addresses strictly rising. -/
def writeByte : Memory → Nat → Byte → Memory
  | [], a, b => [(a, b)]
  | (k, c) :: rest, a, b =>
    if a < k then (a, b) :: (k, c) :: rest
    else if a = k then (a, b) :: rest
    else (k, c) :: writeByte rest a b

/-- The word at a byte address. -/
def readWord (m : Memory) (a : Nat) : Word :=
  wordOfBytes (readByte m a) (readByte m (a + 1)) (readByte m (a + 2)) (readByte m (a + 3))

/-- Replace the whole word at a byte address (R79: "There are no byte enables and no partial write"). -/
def writeWord (m : Memory) (a : Nat) (v : Word) : Memory :=
  writeByte (writeByte (writeByte (writeByte m a (byteOfWord v 0)) (a + 1) (byteOfWord v 1)) (a + 2) (byteOfWord v 2))
    (a + 3) (byteOfWord v 3)

/-- Enter an address into a strictly rising list of addresses. -/
def insertAddr : List Nat → Nat → List Nat
  | [], a => [a]
  | k :: rest, a => if a < k then a :: k :: rest else if a = k then k :: rest else k :: insertAddr rest a

/-- The words that STW has written once the word at `a` is one of them (R90). -/
def noteStored (l : List Nat) (a : Nat) : List Nat := insertAddr l a

/-! ### The bus (20_memory.md R72 to R76) -/

/-- What answers at an aligned byte address: the window by address bits 31:29, then the device's own range. -/
def locate (a : Word) : Location :=
  let offset := a.toNat % Config.windowSize
  match a.toNat / Config.windowSize with
  | 0 => if offset < Config.romSize then .rom else .romHole
  | 1 => if offset < Config.spmSize then .spm else .unmapped
  | 2 =>
    match offset with
    | 0x0 => .timer .control
    | 0x4 => .timer .interrupt
    | 0x8 => .timer .expiration
    | 0xC => .timer .counter
    | _ => .unmapped
  | 3 =>
    match offset with
    | 0x0 => .uart .status
    | 0x4 => .uart .data
    | _ => .unmapped
  | 4 =>
    match offset with
    | 0x0 => .gpio .input
    | 0x4 => .gpio .output
    | 0x8 => .gpio .inout
    | 0xC => .gpio .direction
    | _ => .unmapped
  | _ => .unmapped

/-- `MemRead(a, 4)`, or nothing where there is no responder (R74, R78). No read has a side effect (R85). -/
def busRead (s : State) (a : Word) : Option Word :=
  match locate a with
  | .rom => some (readWord s.mem a.toNat)
  | .spm => some (readWord s.mem a.toNat)
  | .timer r => some (timerRead s.timer r)
  | .uart r => some (uartRead s.uart r)
  | .gpio r => some (gpioRead s.gpio r)
  | .romHole => none
  | .unmapped => none

/-- `MemWrite(a, 4, v)`, or the refusal the spec gives the store (R74, R79, R91; 60_exceptions.md R235, R242). Every
word it writes counts as stored (R90: "a fetch from a word that an STW of the same run has written is refused"), a device register
too (log 41). -/
def busWrite (s : State) (a : Word) (v : Word) : Except Refusal State :=
  match locate a with
  | .rom => .error (.storeToRom a)
  | .romHole => .error (.storeToRom a)
  | .spm => .ok { s with mem := writeWord s.mem a.toNat v, stored := noteStored s.stored a.toNat }
  | .timer r => .ok { s with timer := timerWrite s.timer r v, stored := noteStored s.stored a.toNat }
  | .uart r =>
    match uartWrite s.uart r v with
    | .ok u => .ok { s with uart := u, stored := noteStored s.stored a.toNat }
    | .error e => .error e
  | .gpio r =>
    match gpioWrite s.gpio r v with
    | .ok g => .ok { s with gpio := g, stored := noteStored s.stored a.toNat }
    | .error e => .error e
  | .unmapped => .error (.storeNoResponder a)

/-! ### Control flow (43_branch.md R160) -/

/-- The address after an instruction that is no branch and raises nothing: the target of a taken branch whose slot this
was, else `pc + 4`. -/
def successor (s : State) : Word :=
  match s.pending with
  | .slot (some t) => byteAddr t
  | .slot none => s.pc + 4#32
  | .none => s.pc + 4#32

/-- Go on after an instruction that is no branch (R160, "else"). -/
def advance (s : State) : State := { s with pc := successor s, pending := .none }

/-- Whether the instruction at `pc` stands in a delay slot (10_state.md R45). -/
def inDelaySlot (s : State) : Bool :=
  match s.pending with
  | .none => false
  | .slot _ => true

/-- `branch_to`, or the not-taken case: the next instruction is the slot at `pc + 4` (R160). -/
def enterSlot (s : State) (target : Option WordAddr) : State :=
  { s with pc := s.pc + 4#32, pending := .slot target }

/-- A branch instruction: refused in a delay slot (R168). -/
def branch (s : State) (target : Option WordAddr) : Result :=
  if inDelaySlot s then .refused .branchInDelaySlot else .next (enterSlot s target)

/-- What CALL writes to `r31`: the address of the CALL plus `CALL_LINK_OFFSET` (R167, log 5). -/
def callLink (pc : Word) : Word := pc + Config.callLinkOffset

/-! ### Exceptions (60_exceptions.md R200, R212; 46_privileged.md R189) -/

/-- CODE of a cause (R200). -/
def causeCode : Cause → BitVec 3
  | .externalInterrupt => 1#3
  | .undefinedInstruction => 2#3
  | .arithmeticOverflow => 3#3
  | .addressMissAlign => 4#3
  | .trap => 5#3
  | .privilegeViolation => 6#3

/-- Taking an exception: the nine assignments of R212, with `pc` the address of the instruction that did not complete. -/
def enterException (c : Cause) (s : State) : State :=
  { s with
    prevStatus := s.status
    status := { ie := false, em := .kernel }
    epc := wordAddr s.pc
    excCode := { d := inDelaySlot s, code := causeCode c }
    pending := .none
    pc := byteAddr s.expVec }

/-- `raise E` (00_scope.md R9): nothing else is written. -/
def raise (c : Cause) (s : State) : Result := .next (enterException c s)

/-- The effect of EXRT in kernel mode (46_privileged.md R189). -/
def returnFromException (s : State) : State :=
  { s with status := s.prevStatus, pending := .none, pc := byteAddr s.epc }

/-- The mode test that begins each privileged instruction (46_privileged.md R185). -/
def inKernelMode (s : State) (body : Result) : Result :=
  match s.status.em with
  | .kernel => body
  | .user => raise .privilegeViolation s

/-- An instruction that writes one general register and goes on. -/
def writeAndAdvance (s : State) (r : Reg) (v : Word) : Result := .next (advance (writeReg s r v))

end Sys2Proof.Machine
end

