-- ==== Sys2Proof/Machine/Flags.lean ====
section
/-!
DEFINITION. The machine has no flags and no condition codes (spec/10_state.md R47). What stands here are the conditions
that other machines keep as flags: signed overflow (spec/41_arithmetic.md R141) and the comparisons of the conditional
branches (spec/43_branch.md R162 to R165).
-/

namespace Sys2Proof.Machine

/-- `signed(v) < 0`: bit 31. -/
def isNegative (v : Word) : Bool := v.msb

/-- ArithmeticOverflow of `a + b`, by the two sign tests of R141. -/
def addOverflows (a b : Word) : Bool :=
  (!isNegative a && !isNegative b && isNegative (a + b)) || (isNegative a && isNegative b && !isNegative (a + b))

/-- ArithmeticOverflow of `a - b`, by the two sign tests of R141. -/
def subOverflows (a b : Word) : Bool :=
  (!isNegative a && isNegative b && isNegative (a - b)) || (isNegative a && !isNegative b && !isNegative (a - b))

/-- `signed(a) < signed(b)`: BSGT (43_branch.md R164). -/
def signedLess (a b : Word) : Bool := a.slt b

/-- `unsigned(a) < unsigned(b)`: BUGT (43_branch.md R165). -/
def unsignedLess (a b : Word) : Bool := a.ult b

end Sys2Proof.Machine
end

