-- ==== Sys2Proof/Machine/Operands.lean ====
section
/-!
DEFINITION. Every operand form: the extended immediates, the shift amounts, the branch target, the effective address
(spec/30_encoding.md R110 to R114).
-/

namespace Sys2Proof.Machine

/-- `zext_32(imm)`: ANDI, ORI, XORI (R110). -/
def zextImm (imm : Imm) : Word := imm.setWidth 32

/-- `sext_32(imm)`: ADDSI, ADDUI, LDW, STW (R111, R114). -/
def sextImm (imm : Imm) : Word := imm.signExtend 32

/-- The shift amount of SHRLR and SHLLR: bits 4:0 of a register (42_shift.md R150). -/
def shiftAmountReg (v : Word) : Nat := (v.extractLsb' 0 5).toNat

/-- The shift amount of SHRLI and SHLLI: `imm[4:0]`; bits 15:5 are ignored (R112). -/
def shiftAmountImm (imm : Imm) : Nat := (imm.extractLsb' 0 5).toNat

/-- The target word address of a conditional branch: `pc[31:2] + 1 + sext_30(imm)` (43_branch.md R161). -/
def branchTarget (pc : Word) (imm : Imm) : WordAddr := wordAddr pc + 1#30 + imm.signExtend 30

/-- The target word address of JMP and CALL: bits 31:2 of the register (43_branch.md R166, R167). -/
def jumpTarget (v : Word) : WordAddr := wordAddr v

/-- The effective address of LDW and STW: base plus sign-extended byte offset, modulo 2^32 (44_memory_access.md R170). -/
def effectiveAddress (base : Word) (imm : Imm) : Word := base + sextImm imm

/-- `ADDR[1:0] = 00` (20_memory.md R82). -/
def isAligned (a : Word) : Bool := a.extractLsb' 0 2 == 0#2

end Sys2Proof.Machine
end

