-- ==== Sys2Proof/Machine/Arithmetic.lean ====
section
/-!
DEFINITION. The arithmetic instructions (spec/41_arithmetic.md R140 to R147).
-/

namespace Sys2Proof.Machine

/-- A signed instruction: ArithmeticOverflow, with the destination not written, or the result (R140, R141). -/
def overflowOrWrite (overflows : Bool) (s : State) (r : Reg) (v : Word) : Result :=
  if overflows then raise .arithmeticOverflow s else writeAndAdvance s r v

/-- ADDSR (R142). -/
def execAddsr (ra rb rc : Reg) (s : State) : Result :=
  overflowOrWrite (addOverflows (readReg s ra) (readReg s rb)) s rc (readReg s ra + readReg s rb)

/-- ADDSI (R143). -/
def execAddsi (ra rb : Reg) (imm : Imm) (s : State) : Result :=
  overflowOrWrite (addOverflows (readReg s ra) (sextImm imm)) s rb (readReg s ra + sextImm imm)

/-- ADDUR (R144). -/
def execAddur (ra rb rc : Reg) (s : State) : Result := writeAndAdvance s rc (readReg s ra + readReg s rb)

/-- ADDUI (R145): the immediate is sign-extended. -/
def execAddui (ra rb : Reg) (imm : Imm) (s : State) : Result := writeAndAdvance s rb (readReg s ra + sextImm imm)

/-- SUBSR (R146). -/
def execSubsr (ra rb rc : Reg) (s : State) : Result :=
  overflowOrWrite (subOverflows (readReg s ra) (readReg s rb)) s rc (readReg s ra - readReg s rb)

/-- SUBUR (R147). -/
def execSubur (ra rb rc : Reg) (s : State) : Result := writeAndAdvance s rc (readReg s ra - readReg s rb)

end Sys2Proof.Machine
end

