-- ==== Sys2Proof/Machine/Branch.lean ====
section
/-!
DEFINITION. The branch instructions (spec/43_branch.md R160 to R168).
-/

namespace Sys2Proof.Machine

/-- A conditional branch: `branch_to(pc[31:2] + 1 + sext_30(imm))` if the condition holds, else not taken (R161). -/
def branchIf (condition : Bool) (imm : Imm) (s : State) : Result :=
  branch s (if condition then some (branchTarget s.pc imm) else none)

/-- BE (R162). -/
def execBe (ra rb : Reg) (imm : Imm) (s : State) : Result := branchIf (readReg s ra == readReg s rb) imm s

/-- BNE (R163). -/
def execBne (ra rb : Reg) (imm : Imm) (s : State) : Result := branchIf (readReg s ra != readReg s rb) imm s

/-- BSGT (R164): taken when `x[Ra]` is less than `x[Rb]`, signed. -/
def execBsgt (ra rb : Reg) (imm : Imm) (s : State) : Result := branchIf (signedLess (readReg s ra) (readReg s rb)) imm s

/-- BUGT (R165): taken when `x[Ra]` is less than `x[Rb]`, unsigned. -/
def execBugt (ra rb : Reg) (imm : Imm) (s : State) : Result := branchIf (unsignedLess (readReg s ra) (readReg s rb)) imm s

/-- JMP (R166). -/
def execJmp (ra : Reg) (s : State) : Result := branch s (some (jumpTarget (readReg s ra)))

/-- CALL (R167): the target is read before `r31` is written. -/
def execCall (ra : Reg) (s : State) : Result :=
  branch (writeReg s 31 (callLink s.pc)) (some (jumpTarget (readReg s ra)))

end Sys2Proof.Machine
end

