-- ==== Sys2Proof/Machine/Logic.lean ====
section
/-!
DEFINITION. The logic instructions (spec/40_logical.md R130 to R135).
-/

namespace Sys2Proof.Machine

/-- ANDR (R130): `x[Rc] <- x[Ra] AND x[Rb]`. -/
def execAndr (ra rb rc : Reg) (s : State) : Result := writeAndAdvance s rc (readReg s ra &&& readReg s rb)

/-- ANDI (R131): `x[Rb] <- x[Ra] AND zext_32(imm)`. -/
def execAndi (ra rb : Reg) (imm : Imm) (s : State) : Result := writeAndAdvance s rb (readReg s ra &&& zextImm imm)

/-- ORR (R132): `x[Rc] <- x[Ra] OR x[Rb]`. -/
def execOrr (ra rb rc : Reg) (s : State) : Result := writeAndAdvance s rc (readReg s ra ||| readReg s rb)

/-- ORI (R133): `x[Rb] <- x[Ra] OR zext_32(imm)`. -/
def execOri (ra rb : Reg) (imm : Imm) (s : State) : Result := writeAndAdvance s rb (readReg s ra ||| zextImm imm)

/-- XORR (R134): `x[Rc] <- x[Ra] XOR x[Rb]`. -/
def execXorr (ra rb rc : Reg) (s : State) : Result := writeAndAdvance s rc (readReg s ra ^^^ readReg s rb)

/-- XORI (R135): `x[Rb] <- x[Ra] XOR zext_32(imm)`. -/
def execXori (ra rb : Reg) (imm : Imm) (s : State) : Result := writeAndAdvance s rb (readReg s ra ^^^ zextImm imm)

end Sys2Proof.Machine
end

