-- ==== Sys2Proof/Machine/MemoryAccess.lean ====
section
/-!
DEFINITION. The memory access instructions (spec/44_memory_access.md R170 to R172).
-/

namespace Sys2Proof.Machine

/-- The body of a load at an effective address: AddressMissAlign, or the word into `x[rb]`, or stuck where there is no
responder (R171; 20_memory.md R74). -/
def loadWord (a : Word) (rb : Reg) (s : State) : Result :=
  if isAligned a then
    match busRead s a with
    | some v => writeAndAdvance s rb v
    | none => .fault (.loadNoResponder a)
  else raise .addressMissAlign s

/-- The body of a store at an effective address: AddressMissAlign, or the store, or the refusal the spec gives it (R172). -/
def storeWord (a : Word) (v : Word) (s : State) : Result :=
  if isAligned a then
    match busWrite s a v with
    | .ok t => .next (advance t)
    | .error r => .refused r
  else raise .addressMissAlign s

/-- LDW (R171). -/
def execLdw (ra rb : Reg) (imm : Imm) (s : State) : Result := loadWord (effectiveAddress (readReg s ra) imm) rb s

/-- STW (R172). -/
def execStw (ra rb : Reg) (imm : Imm) (s : State) : Result :=
  storeWord (effectiveAddress (readReg s ra) imm) (readReg s rb) s

end Sys2Proof.Machine
end

