-- ==== Sys2Proof/Machine/Interrupts.lean ====
section
/-!
DEFINITION. The eight interrupt request lines and the acceptance of an interrupt (spec/60_exceptions.md R204 to R209;
spec/10_state.md R35, R46).
-/

namespace Sys2Proof.Machine

/-- The level of a line that a given source drives (R204). The device flag is looked at first, so that a line whose
devices request nothing is low whatever `IRQ_MAP` is. -/
def sourceLevel (s : State) (src : IrqSource) : Bool :=
  (s.timer.irq && src == .timerI) || (s.uart.rxI && src == .uartRxI) || (s.uart.txI && src == .uartTxI)

/-- The eight lines under an `IRQ_MAP`, line 7 in bit 7 (R204). -/
def irqLinesOf (map : Fin 8 → IrqSource) (s : State) : BitVec 8 :=
  BitVec.ofBool (sourceLevel s (map 7)) ++ BitVec.ofBool (sourceLevel s (map 6)) ++
  BitVec.ofBool (sourceLevel s (map 5)) ++ BitVec.ofBool (sourceLevel s (map 4)) ++
  BitVec.ofBool (sourceLevel s (map 3)) ++ BitVec.ofBool (sourceLevel s (map 2)) ++
  BitVec.ofBool (sourceLevel s (map 1)) ++ BitVec.ofBool (sourceLevel s (map 0))

/-- Interrupt Request: a live view of the lines (10_state.md R35). -/
def irqLines (s : State) : BitVec 8 := irqLinesOf Config.irqSource s

/-- `deliverable = (IRQ AND NOT INT_MASK) != 0` (R205). -/
def deliverable (irq : BitVec 8) (s : State) : Bool := (irq &&& ~~~s.intMask) != 0#8

/-- The CPU may take ExternalInterrupt at this boundary (R207). -/
def interruptible (irq : BitVec 8) (s : State) : Bool := s.status.ie && deliverable irq s

/-- What the CPU does about interrupts at a boundary (R207, log 18). -/
inductive IrqChoice where
  /-- Take ExternalInterrupt instead of the instruction. -/
  | take
  /-- Execute the instruction; the interrupt may be taken at a later boundary. -/
  | execute
  deriving DecidableEq, Repr

/-- The free choice of R207, with its fairness: an interrupt that has become deliverable waits a free, finite number of
boundaries and is then taken, if it is deliverable all that time (log 18). -/
def irqChoice (irq : BitVec 8) (s : State) : IrqChoice :=
  if interruptible irq s && s.env.irqWait == 0 then .take else .execute

/-- The wait that stands after a boundary at which no interrupt was taken. -/
def nextIrqWait (irq : BitVec 8) (s : State) : Nat :=
  if interruptible irq s then s.env.irqWait - 1 else Config.irqDelay s.env.clock

/-- The state in which the instruction executes when no interrupt is taken: only the model's own counter changed. -/
def noteWait (irq : BitVec 8) (s : State) : State := { s with env := { s.env with irqWait := nextIrqWait irq s } }

end Sys2Proof.Machine
end

