-- ==== Sys2Proof/Machine/ControlRegisters.lean ====
section
/-!
DEFINITION. The control register space: what RDCR reads and WRCR writes (spec/10_state.md R27 to R41).
-/

namespace Sys2Proof.Machine

/-- The EM bit of a mode (R28). -/
def Mode.bit : Mode → Bool
  | .kernel => false
  | .user => true

/-- The mode an EM bit stands for (R28). -/
def modeOfBit (b : Bool) : Mode := if b then .user else .kernel

/-- Status and Previous Status as words: IE in bit 1, EM in bit 0, reserved bits 0 (R28, R29, R40). -/
def statusWord (st : Status) : Word := 0#30 ++ BitVec.ofBool st.ie ++ BitVec.ofBool st.em.bit

/-- The two status fields of a written word (R28, R29, R40). -/
def statusOfWord (v : Word) : Status := { ie := v.getLsbD 1, em := modeOfBit (v.getLsbD 0) }

/-- Exception Code as a word: D in bit 3, CODE in bits 2:0 (R33, R40). -/
def excCodeWord (e : ExcCode) : Word := 0#28 ++ BitVec.ofBool e.d ++ e.code

/-- The two fields of a written Exception Code (R33, R40). -/
def excCodeOfWord (v : Word) : ExcCode := { d := v.getLsbD 3, code := v.extractLsb' 0 3 }

/-- `CTRL[n]` as RDCR reads it (R27 to R40); numbers 0x08 to 0x1c are refused (R39). -/
def readControl (s : State) (n : CtrlNum) : Except Refusal Word :=
  match n.val with
  | 0x00 => .ok (statusWord s.status)
  | 0x01 => .ok (statusWord s.prevStatus)
  | 0x02 => .ok s.pc
  | 0x03 => .ok (byteAddr s.epc)
  | 0x04 => .ok (byteAddr s.expVec)
  | 0x05 => .ok (excCodeWord s.excCode)
  | 0x06 => .ok (0#24 ++ s.intMask)
  | 0x07 => .ok (0#24 ++ irqLines s)
  | 0x1d => .ok (BitVec.ofNat 32 Config.romSize)
  | 0x1e => .ok (BitVec.ofNat 32 Config.spmSize)
  | 0x1f => .ok Config.cpuInfo
  | _ => .error (.unimplementedControlRegister n)

/-- `CTRL[n] <- v` as WRCR writes it (46_privileged.md R188): only the writable fields; a read-only register (R41) and an
unimplemented number (R39) are refused. -/
def writeControl (s : State) (n : CtrlNum) (v : Word) : Except Refusal State :=
  match n.val with
  | 0x00 => .ok { s with status := statusOfWord v }
  | 0x01 => .ok { s with prevStatus := statusOfWord v }
  | 0x03 => .ok { s with epc := wordAddr v }
  | 0x04 => .ok { s with expVec := wordAddr v }
  | 0x05 => .ok { s with excCode := excCodeOfWord v }
  | 0x06 => .ok { s with intMask := v.extractLsb' 0 8 }
  | 0x02 => .error (.readOnlyControlRegister n)
  | 0x07 => .error (.readOnlyControlRegister n)
  | 0x1d => .error (.readOnlyControlRegister n)
  | 0x1e => .error (.readOnlyControlRegister n)
  | 0x1f => .error (.readOnlyControlRegister n)
  | _ => .error (.unimplementedControlRegister n)

end Sys2Proof.Machine
end

