-- ==== Sys2Proof/Machine/Privileged.lean ====
section
/-!
DEFINITION. The privileged instructions (spec/46_privileged.md R185 to R190).
-/

namespace Sys2Proof.Machine

/-- RDCR (R187): `x[Rb] <- CTRL[Ra]`. -/
def execRdcr (ca : CtrlNum) (rb : Reg) (s : State) : Result :=
  inKernelMode s
    (match readControl s ca with
    | .ok v => writeAndAdvance s rb v
    | .error r => .refused r)

/-- WRCR (R188): `CTRL[Rb] <- x[Ra]`. -/
def execWrcr (ra : Reg) (cb : CtrlNum) (s : State) : Result :=
  inKernelMode s
    (match writeControl s cb (readReg s ra) with
    | .ok t => .next (advance t)
    | .error r => .refused r)

/-- EXRT (R189): no delay slot. -/
def execExrt (s : State) : Result := inKernelMode s (.next (returnFromException s))

end Sys2Proof.Machine
end

