-- ==== Sys2Proof/Machine/Shift.lean ====
section
/-!
DEFINITION. The shift instructions (spec/42_shift.md R150 to R154).
-/

namespace Sys2Proof.Machine

/-- SHRLR (R151). -/
def execShrlr (ra rb rc : Reg) (s : State) : Result :=
  writeAndAdvance s rc (readReg s ra >>> shiftAmountReg (readReg s rb))

/-- SHRLI (R152). -/
def execShrli (ra rb : Reg) (imm : Imm) (s : State) : Result := writeAndAdvance s rb (readReg s ra >>> shiftAmountImm imm)

/-- SHLLR (R153). -/
def execShllr (ra rb rc : Reg) (s : State) : Result :=
  writeAndAdvance s rc (readReg s ra <<< shiftAmountReg (readReg s rb))

/-- SHLLI (R154). -/
def execShlli (ra rb : Reg) (imm : Imm) (s : State) : Result := writeAndAdvance s rb (readReg s ra <<< shiftAmountImm imm)

end Sys2Proof.Machine
end

