-- ==== Sys2Proof/Machine/Trap.lean ====
section
/-!
DEFINITION. The TRAP instruction (spec/45_trap.md R180).
-/

namespace Sys2Proof.Machine

/-- TRAP (R180): `raise Trap`, in either mode. -/
def execTrap (s : State) : Result := raise .trap s

end Sys2Proof.Machine
end

