-- ==== Sys2Proof/Machine/Dispatch.lean ====
section
/-!
DEFINITION. The dispatch: one arm per instruction, each one call of that instruction's meaning.
-/

namespace Sys2Proof.Machine

/-- The meaning of an instruction in a state; `pc` is the instruction's own address. -/
def exec (i : Instr) (s : State) : Host.Outcome State Fault Refusal :=
  match i with
  | .andr ra rb rc => Sys2Proof.Machine.execAndr ra rb rc s
  | .andi ra rb imm => Sys2Proof.Machine.execAndi ra rb imm s
  | .orr ra rb rc => Sys2Proof.Machine.execOrr ra rb rc s
  | .ori ra rb imm => Sys2Proof.Machine.execOri ra rb imm s
  | .xorr ra rb rc => Sys2Proof.Machine.execXorr ra rb rc s
  | .xori ra rb imm => Sys2Proof.Machine.execXori ra rb imm s
  | .addsr ra rb rc => Sys2Proof.Machine.execAddsr ra rb rc s
  | .addsi ra rb imm => Sys2Proof.Machine.execAddsi ra rb imm s
  | .addur ra rb rc => Sys2Proof.Machine.execAddur ra rb rc s
  | .addui ra rb imm => Sys2Proof.Machine.execAddui ra rb imm s
  | .subsr ra rb rc => Sys2Proof.Machine.execSubsr ra rb rc s
  | .subur ra rb rc => Sys2Proof.Machine.execSubur ra rb rc s
  | .shrlr ra rb rc => Sys2Proof.Machine.execShrlr ra rb rc s
  | .shrli ra rb imm => Sys2Proof.Machine.execShrli ra rb imm s
  | .shllr ra rb rc => Sys2Proof.Machine.execShllr ra rb rc s
  | .shlli ra rb imm => Sys2Proof.Machine.execShlli ra rb imm s
  | .be ra rb imm => Sys2Proof.Machine.execBe ra rb imm s
  | .bne ra rb imm => Sys2Proof.Machine.execBne ra rb imm s
  | .bsgt ra rb imm => Sys2Proof.Machine.execBsgt ra rb imm s
  | .bugt ra rb imm => Sys2Proof.Machine.execBugt ra rb imm s
  | .jmp ra => Sys2Proof.Machine.execJmp ra s
  | .call ra => Sys2Proof.Machine.execCall ra s
  | .ldw ra rb imm => Sys2Proof.Machine.execLdw ra rb imm s
  | .stw ra rb imm => Sys2Proof.Machine.execStw ra rb imm s
  | .trap => Sys2Proof.Machine.execTrap s
  | .rdcr ca rb => Sys2Proof.Machine.execRdcr ca rb s
  | .wrcr ra cb => Sys2Proof.Machine.execWrcr ra cb s
  | .exrt => Sys2Proof.Machine.execExrt s

end Sys2Proof.Machine
end

