-- ==== Sys2Proof/Machine/Cycle.lean ====
section
/-!
DEFINITION. The CPU step (spec/70_reset_and_hazards.md R270): the interrupt choice, the fetch, decoding, execution.
-/

namespace Sys2Proof.Machine

/-- What a fetch gives (20_memory.md R74, R80, R90). -/
inductive Fetched where
  | word (w : Word)
  | noResponder
  | storedWord
  deriving DecidableEq, Repr

/-- The fetch at the program counter: the same primitive as a load (R80), but a word that an STW of this run has written
is refused (R90). -/
def fetch (s : State) : Fetched :=
  match busRead s s.pc with
  | none => .noResponder
  | some w => if s.stored.contains s.pc.toNat then .storedWord else .word w

/-- Decode and execute a fetched word (R270, 3 to 5; 30_encoding.md R109, R116, R117). -/
def executeWord (w : Word) (s : State) : Result :=
  match decodeWord w with
  | .instr i => exec i s
  | .undefinedInstruction => raise .undefinedInstruction s
  | .reservedField => .refused (.reservedField w)
  | .truncated => .refused (.reservedField w)

/-- Fetch, decode, execute (R270, 2 to 5). -/
def fetchAndExecute (s : State) : Result :=
  match fetch s with
  | .word w => executeWord w s
  | .noResponder => .fault (.fetchNoResponder s.pc)
  | .storedWord => .refused (.fetchOfStoredWord s.pc)

/-- The CPU step with the request lines at the given levels (R270). -/
def cpuStep (irq : BitVec 8) (s : State) : Result :=
  match irqChoice irq s with
  | .take => raise .externalInterrupt s
  | .execute => fetchAndExecute (noteWait irq s)

/-- The device steps that fall before the CPU step, then the CPU step with the lines as they then are (R269, R270). -/
def machineStep (s : State) : Result := cpuStep (irqLines (deviceSteps s)) (deviceSteps s)

/-- The word at the program counter replaced, as a loader does before the run: the word does not count as stored by the
program (log 4). It is meant for a program counter in ROM or SPM. -/
def placeWord (s : State) (w : Word) : State :=
  { s with mem := writeWord s.mem s.pc.toNat w, stored := s.stored.filter (fun a => a != s.pc.toNat) }

end Sys2Proof.Machine
end

