-- ==== Sys2Proof/Machine/Step.lean ====
section
/-!
DEFINITION. One step of the machine, and the placing of an instruction where the step fetches.
-/

namespace Sys2Proof.Machine

/-- One step: the device steps before it, then one CPU step (spec/70_reset_and_hazards.md R269, R270; log 39). -/
def step (s : State) : Host.Outcome State Fault Refusal := machineStep s

/-- The state with the instruction of a table row stored at the program counter (log 4). -/
def State.withFetchWord (s : State) (nbits w : Nat) : State := placeWord s (tableWord nbits w)

end Sys2Proof.Machine
end

