-- ==== Sys2Proof/WellFormed.lean ====
section
/-!
DEFINITION. Well-formedness: what the spec asks of an instruction, and of two instructions that follow one another,
beyond what the types of Syntax.lean already say (every register number is below 32, every immediate has 16 bits).
An ill-formed instruction still decodes and still has a meaning; these checks are software's rules.
-/

namespace Sys2Proof

/-- The control register numbers that are implemented, the eleven of 10_state.md R27. -/
def CtrlNum.isImplemented (n : CtrlNum) : Bool := n.val ≤ 0x07 || 0x1d ≤ n.val

/-- The control registers WRCR may write: those marked R/W in 10_state.md R27 (R41 lists the others). -/
def CtrlNum.isWritable (n : CtrlNum) : Bool :=
  n.val == 0x00 || n.val == 0x01 || n.val == 0x03 || n.val == 0x04 || n.val == 0x05 || n.val == 0x06

/-- The six branch instructions, those with a delay slot (43_branch.md R160). -/
def Instr.isBranch : Instr → Bool
  | .be .. | .bne .. | .bsgt .. | .bugt .. | .jmp _ | .call _ => true
  | .andr .. | .andi .. | .orr .. | .ori .. | .xorr .. | .xori .. => false
  | .addsr .. | .addsi .. | .addur .. | .addui .. | .subsr .. | .subur .. => false
  | .shrlr .. | .shrli .. | .shllr .. | .shlli .. => false
  | .ldw .. | .stw .. | .trap | .rdcr .. | .wrcr .. | .exrt => false

/-- The three privileged instructions (46_privileged.md R185). -/
def Instr.isPrivileged : Instr → Bool
  | .rdcr .. | .wrcr .. | .exrt => true
  | .be .. | .bne .. | .bsgt .. | .bugt .. | .jmp _ | .call _ => false
  | .andr .. | .andi .. | .orr .. | .ori .. | .xorr .. | .xori .. => false
  | .addsr .. | .addsi .. | .addur .. | .addui .. | .subsr .. | .subur .. => false
  | .shrlr .. | .shrli .. | .shllr .. | .shlli .. => false
  | .ldw .. | .stw .. | .trap => false

/-- An instruction names only control registers it may name: RDCR an implemented one (R39), WRCR a writable one
(R39, R41). -/
def Instr.wellFormed : Instr → Bool
  | .rdcr ca _ => ca.isImplemented
  | .wrcr _ cb => cb.isWritable
  | .be .. | .bne .. | .bsgt .. | .bugt .. | .jmp _ | .call _ => true
  | .andr .. | .andi .. | .orr .. | .ori .. | .xorr .. | .xori .. => true
  | .addsr .. | .addsi .. | .addur .. | .addui .. | .subsr .. | .subur .. => true
  | .shrlr .. | .shrli .. | .shllr .. | .shlli .. => true
  | .ldw .. | .stw .. | .trap | .exrt => true

/-- No branch instruction stands directly after a branch instruction (43_branch.md R168; 70_reset_and_hazards.md R264). -/
def noBranchInSlot : List Instr → Bool
  | [] => true
  | [_] => true
  | i :: j :: rest => !(i.isBranch && j.isBranch) && noBranchInSlot (j :: rest)

/-- A straight piece of program text is well-formed. -/
def programWellFormed (p : List Instr) : Bool := p.all Instr.wellFormed && noBranchInSlot p

end Sys2Proof
end

