-- ==== Sys2Proof/Safety.lean ====
section
/-!
DEFINITION. The terms that claims use: the parts of the state that stay the same, the invariant of the machine, a safe
run, the end of a run.
-/

namespace Sys2Proof.Machine

/-! ### What stays the same -/

/-- Every general register but those of a list holds what it held. -/
def sameRegsBut (l : List Reg) (s t : State) : Prop := ∀ r, r ∉ l → readReg t r = readReg s r

/-- Every control register and exception register holds what it held (spec/10_state.md R28 to R34). -/
def sameControl (s t : State) : Prop :=
  t.status = s.status ∧ t.prevStatus = s.prevStatus ∧ t.epc = s.epc ∧ t.expVec = s.expVec ∧
  t.excCode = s.excCode ∧ t.intMask = s.intMask

/-- Every byte of ROM and SPM reads as it read, and the same words count as stored. -/
def sameMemory (s t : State) : Prop := (∀ a, readByte t.mem a = readByte s.mem a) ∧ t.stored = s.stored

/-- The three devices, and the model's own counters, are as they were. -/
def sameDevices (s t : State) : Prop := t.timer = s.timer ∧ t.uart = s.uart ∧ t.gpio = s.gpio ∧ t.env = s.env

/-- Everything but the program counter, the pending branch and the named general registers is as it was. -/
def onlyRegs (l : List Reg) (s t : State) : Prop :=
  sameRegsBut l s t ∧ sameControl s t ∧ sameMemory s t ∧ sameDevices s t

/-- The effect of an instruction that writes `v` to one general register: that write and nothing else but the program
counter and the pending branch. -/
def writesReg (s t : State) (r : Reg) (v : Word) : Prop := readReg t r = v ∧ onlyRegs [r] s t

/-- The program counter moves on as after an instruction that is no branch (spec/43_branch.md R160): to the target of a
taken branch whose delay slot this was, else to the next word; no branch is pending after it. -/
def movesOn (s t : State) : Prop :=
  t.pending = .none ∧
  (∀ a, s.pending = .slot (some a) → t.pc = a ++ 0#2) ∧
  ((s.pending = .none ∨ s.pending = .slot none) → t.pc = s.pc + 4#32)

/-- The accesses that no device answers: the three reserved windows, and inside the other windows every address beyond
the device (spec/20_memory.md R74). -/
def noResponder (a : Nat) : Prop :=
  (0x00001000 ≤ a ∧ a < 0x20000000) ∨ (0x20008000 ≤ a ∧ a < 0x40000000) ∨ (0x40000010 ≤ a ∧ a < 0x60000000) ∨
  (0x60000008 ≤ a ∧ a < 0x80000000) ∨ 0x80000010 ≤ a

/-- A byte address of the scratch pad memory (spec/20_memory.md R75). -/
def inSpm (a : Nat) : Prop := 0x20000000 ≤ a ∧ a < 0x20008000

/-- The address of a device register that an STW can write: all but the GPIO Input Port (spec/60_exceptions.md R220, R230, R240,
R242). -/
def inWritableDevice (a : Nat) : Prop :=
  a ∈ [0x40000000, 0x40000004, 0x40000008, 0x4000000C, 0x60000000, 0x60000004, 0x80000004, 0x80000008, 0x8000000C]

/-- A byte address of the Boot ROM (spec/20_memory.md R73). -/
def inRom (a : Nat) : Prop := a < 0x00001000

/-- The state that an exception entry leaves (spec/60_exceptions.md R212), field by field. -/
def entered (code : BitVec 3) (s t : State) : Prop :=
  t.prevStatus = s.status ∧ t.status.ie = false ∧ t.status.em = .kernel ∧
  (s.pc.toNat % 4 = 0 → t.epc ++ 0#2 = s.pc) ∧
  t.excCode.code = code ∧ (t.excCode.d = true ↔ s.pending ≠ .none) ∧
  t.pending = .none ∧ t.pc = s.expVec ++ 0#2 ∧
  t.expVec = s.expVec ∧ t.intMask = s.intMask ∧
  sameRegsBut [] s t ∧ sameMemory s t ∧ sameDevices s t

/-! ### Runs of instructions, and of the timer -/

/-- The instruction is an STW to the word at `a`. -/
def storesTo (a : Word) (i : Instr) (s : State) : Prop :=
  ∃ ra rb imm, i = .stw ra rb imm ∧ effectiveAddress (readReg s ra) imm = a

/-- `s` goes to `t` by a list of instructions none of which is an STW to the word at `a`; before each of them, and after the last,
anything may happen that leaves memory as it was, such as device steps or an exception entry. -/
def runsWithoutStoreTo (a : Word) : List Instr → State → State → Prop
  | [], s, t => sameMemory s t
  | i :: rest, s, t => ∃ u v, sameMemory s u ∧ ¬ storesTo a i u ∧ exec i u = .next v ∧ runsWithoutStoreTo a rest v t

/-- The timer expires in the device steps from `s` (spec/60_exceptions.md R225): after `k` of its clocks it runs with COUNTER at
EXPR, the next clock sets I, clears COUNTER and copies P to S, and the remaining clocks follow. -/
def timerExpires (s : State) : Prop :=
  s.env.timerWait = 0 ∧
  ∃ k ≤ Config.timerExtraSteps s.env.clock,
    let t := timerSteps k s.timer
    t.start = true ∧ t.counter = t.expr ∧
    (deviceSteps s).timer =
      timerSteps (Config.timerExtraSteps s.env.clock - k) { t with irq := true, counter := 0#32, start := t.periodic } ∧
    (deviceSteps s).timer.irq = true

/-! ### Which instruction may raise what (spec/60_exceptions.md R201) -/

/-- The exception an instruction can raise, if any: the complete list of R201, which gives no instruction two. -/
def raises : Instr → Option Cause
  | .addsr .. | .addsi .. | .subsr .. => some .arithmeticOverflow
  | .ldw .. | .stw .. => some .addressMissAlign
  | .trap => some .trap
  | .rdcr .. | .wrcr .. | .exrt => some .privilegeViolation
  | .andr .. | .andi .. | .orr .. | .ori .. | .xorr .. | .xori .. => none
  | .addur .. | .addui .. | .subur .. => none
  | .shrlr .. | .shrli .. | .shllr .. | .shlli .. => none
  | .be .. | .bne .. | .bsgt .. | .bugt .. | .jmp _ | .call _ => none

/-! ### The formats (spec/30_encoding.md R101 to R107) -/

/-- A word has an instruction's operands in the fields of its format, and zeros in the reserved field. -/
def hasOperands (w : Word) : Instr → Prop
  | .andr ra rb rc | .orr ra rb rc | .xorr ra rb rc | .addsr ra rb rc | .addur ra rb rc | .subsr ra rb rc
  | .subur ra rb rc | .shrlr ra rb rc | .shllr ra rb rc =>
    (w.extractLsb' 21 5).toNat = ra.val ∧ (w.extractLsb' 16 5).toNat = rb.val ∧ (w.extractLsb' 11 5).toNat = rc.val ∧
    (w.extractLsb' 0 11).toNat = 0
  | .andi ra rb imm | .ori ra rb imm | .xori ra rb imm | .addsi ra rb imm | .addui ra rb imm | .shrli ra rb imm
  | .shlli ra rb imm | .be ra rb imm | .bne ra rb imm | .bsgt ra rb imm | .bugt ra rb imm | .ldw ra rb imm
  | .stw ra rb imm =>
    (w.extractLsb' 21 5).toNat = ra.val ∧ (w.extractLsb' 16 5).toNat = rb.val ∧ w.extractLsb' 0 16 = imm
  | .rdcr ra rb | .wrcr ra rb =>
    (w.extractLsb' 21 5).toNat = ra.val ∧ (w.extractLsb' 16 5).toNat = rb.val ∧ (w.extractLsb' 0 16).toNat = 0
  | .jmp ra | .call ra => (w.extractLsb' 21 5).toNat = ra.val ∧ (w.extractLsb' 0 21).toNat = 0
  | .trap | .exrt => (w.extractLsb' 0 26).toNat = 0

/-! ### The invariant -/

/-- The word addresses recorded as stored: strictly rising, each a word that an STW can write. -/
def storedWf (l : List Nat) : Prop :=
  strictlyRising l = true ∧ ∀ a ∈ l, a % 4 = 0 ∧ (inSpm a ∨ inWritableDevice a)

/-- The invariant of the machine: `pc[1:0] = 00` (spec/20_memory.md R83), memory in canonical form, the record of stored
words in canonical form. -/
def Inv (s : State) : Prop := s.pc.toNat % 4 = 0 ∧ s.mem.wf = true ∧ storedWf s.stored

/-! ### Modes (spec/60_exceptions.md R217) -/

/-- The same state in a given mode. -/
def withMode (m : Mode) (s : State) : State := { s with status := { s.status with em := m } }

/-- Two states that agree on everything but Status and Previous Status. -/
def sameButStatus (s t : State) : Prop :=
  { t with status := s.status, prevStatus := s.prevStatus } = s

/-! ### Runs -/

/-- `s` runs to `t` in `n` steps. -/
def runsTo : Nat → State → State → Prop
  | 0, s, t => t = s
  | n + 1, s, t => ∃ u, step s = .next u ∧ runsTo n u t

/-- A state some run from `s` reaches. -/
def reachable (s t : State) : Prop := ∃ n, runsTo n s t

/-- `n` steps from `s` neither get stuck nor are refused. -/
def safeFor : Nat → State → Prop
  | 0, _ => True
  | n + 1, s => ∃ u, step s = .next u ∧ safeFor n u

/-- The end of a run by the parameter `END_PC` (spec/70_reset_and_hazards.md R271, log 35): no hardware stops there. -/
def atEnd (endPc : Word) (s : State) : Prop := s.pc = endPc ∧ s.pending = .none

end Sys2Proof.Machine
end

