-- ==== Sys2Proof/Certificates/Slice0/Obligations.lean ====
section
/-!
DEFINITION. The statements about the model, each a Prop and none proved here. A statement rests on the numbered rules of
spec/ that its docstring names; a clause that rests on a decision or a general-knowledge passage of the spec, or on a choice
of the model, says so and names the log entry.
-/

open Sys2Proof Sys2Proof.Machine

/-! ### Encoding -/

/-- Decoding the word of an instruction gives the instruction back, with every operand, from the word, from its bytes and
from the opcode table's numbering (spec/30_encoding.md, "The fields"). The byte order is the model's choice (log 2). -/
def Obligations.DecodeInvertsEncode : Prop :=
  ∀ i : Instr,
    decodeWord (encodeWord i) = .instr i ∧
    (∀ rest, decode (encode i ++ rest) = .instr i) ∧
    decodeTableWord 32 (encodeWord i).toNat = some i

/-- Every word that decodes to an instruction is that instruction's one encoding: no word has two spellings
(spec/30_encoding.md; that a nonzero reserved field is refused is decision D15, log 20). -/
def Obligations.EncodeInvertsDecode : Prop :=
  ∀ (w : Word) (i : Instr), decodeWord w = .instr i → encodeWord i = w

/-- OP in bits 31:26, Ra in 25:21, Rb in 20:16, Rc in 15:11, Immediate in 15:0: a word whose OP is that of an instruction,
with the operands in the fields of its format and zeros in its reserved field, decodes to that instruction
(spec/30_encoding.md R101 to R108). -/
def Obligations.OpcodeAndFieldsSelectInstruction : Prop :=
  ∀ (w : Word) (i : Instr), w.extractLsb' 26 6 = i.opcode → hasOperands w i → decodeWord w = .instr i

/-- Every 32-bit word is exactly one of three things: an instruction, an undefined instruction (OP 0x1C to 0x3F), or a word
with a nonzero reserved field under the strict masks (spec/30_encoding.md R109, R116, R117; decisions D14, D15, log 19, 20). -/
def Obligations.EveryWordIsClassified : Prop :=
  ∀ w : Word,
    let op := (w.extractLsb' 26 6).toNat
    (decodeWord w = .undefinedInstruction ↔ 0x1C ≤ op) ∧
    (decodeWord w = .reservedField ↔
      (op ∈ [0x00, 0x02, 0x04, 0x06, 0x08, 0x0A, 0x0B, 0x0C, 0x0E] ∧ w &&& 0x000007FF#32 ≠ 0#32) ∨
      (op ∈ [0x19, 0x1A] ∧ w &&& 0x0000FFFF#32 ≠ 0#32) ∨
      (op ∈ [0x14, 0x15] ∧ w &&& 0x001FFFFF#32 ≠ 0#32) ∨
      (op ∈ [0x18, 0x1B] ∧ w &&& 0x03FFFFFF#32 ≠ 0#32)) ∧
    decodeWord w ≠ .truncated

/-- Words written out in spec/95_test_vectors.md and in the instruction rules decode to the instructions they stand for; the last two
are a word with an unassigned OP (an undefined instruction, decision D14, log 19) and one with a nonzero reserved field (refused,
decision D15, log 20). -/
def Obligations.WrittenOutWordsDecode : Prop :=
  decodeWord 0x00221800#32 = .instr (.andr 1 2 3) ∧
  decodeWord 0x1C22FFFF#32 = .instr (.addsi 1 2 0xFFFF#16) ∧
  decodeWord 0x3422000F#32 = .instr (.shrli 1 2 0x000F#16) ∧
  decodeWord 0x4422FFFE#32 = .instr (.bne 1 2 0xFFFE#16) ∧
  decodeWord 0x57E00000#32 = .instr (.call 31) ∧
  decodeWord 0x5C220004#32 = .instr (.stw 1 2 0x0004#16) ∧
  decodeWord 0x60000000#32 = .instr .trap ∧
  decodeWord 0x68240000#32 = .instr (.wrcr 1 4) ∧
  decodeWord 0x70000000#32 = .undefinedInstruction ∧
  decodeWord 0x00221801#32 = .reservedField

/-! ### The step -/

/-- A step runs the decoded instruction: when no interrupt is taken, the program counter is in ROM or SPM, no STW has
written the word there, and its four bytes decode to an instruction, the step is that instruction in the state after the
device steps; around it only the devices and the model's own counters have moved (spec/70_reset_and_hazards.md R270). The
order of the bytes is the model's choice (log 2), the device steps before the CPU step too (log 39). -/
def Obligations.StepRunsTheDecodedInstruction : Prop :=
  ∀ (s u : State) (i : Instr),
    u = noteWait (irqLines (deviceSteps s)) (deviceSteps s) →
    irqChoice (irqLines (deviceSteps s)) (deviceSteps s) = .execute →
    (inRom s.pc.toNat ∨ inSpm s.pc.toNat) →
    s.pc.toNat ∉ s.stored →
    decode [readByte s.mem s.pc.toNat, readByte s.mem (s.pc.toNat + 1), readByte s.mem (s.pc.toNat + 2),
      readByte s.mem (s.pc.toNat + 3)] = .instr i →
    step s = exec i u ∧ u.gpr = s.gpr ∧ u.pc = s.pc ∧ u.pending = s.pending ∧ sameControl s u ∧ sameMemory s u

/-- A word with an unassigned OP takes UndefinedInstruction, code 2, in either mode, and changes nothing else of the CPU: when it is
executed, and when a step fetches it from ROM or SPM and takes no interrupt; around the entry only the devices and the model's own
counters have moved (spec/30_encoding.md R116, spec/60_exceptions.md R203, R212, spec/70_reset_and_hazards.md R269, R270; decision
D14, log 19; the code, the entry and EPC are decisions D9, D10, D11, log 14 to 16; that the device steps fall before the CPU step
is the model's choice, log 39). -/
def Obligations.UnassignedOpcodeTakesException : Prop :=
  (∀ (w : Word) (s : State), 0x1C ≤ (w.extractLsb' 26 6).toNat →
    ∃ t, executeWord w s = .next t ∧ entered 2#3 s t) ∧
  (∀ s u : State,
    u = noteWait (irqLines (deviceSteps s)) (deviceSteps s) →
    irqChoice (irqLines (deviceSteps s)) (deviceSteps s) = .execute →
    (inRom s.pc.toNat ∨ inSpm s.pc.toNat) →
    s.pc.toNat ∉ s.stored →
    0x1C ≤ ((readWord s.mem s.pc.toNat).extractLsb' 26 6).toNat →
    u.gpr = s.gpr ∧ u.pc = s.pc ∧ u.pending = s.pending ∧ sameControl s u ∧ sameMemory s u ∧
    ∃ t, step s = .next t ∧ entered 2#3 u t)

/-- Where the fetch stops, by itself and in a step that takes no interrupt: no responder at the program counter (stuck), a word
that an STW of this run has written (refused, in memory and in a device register, log 41), a nonzero reserved field (refused)
(spec/20_memory.md R74, R90; spec/30_encoding.md R117; decisions D15, D19, D20, log 20, 24, 25; the device steps fall before the
CPU step, log 39). -/
def Obligations.FetchStops : Prop :=
  ∀ s : State,
    (irqChoice (irqLines (deviceSteps s)) (deviceSteps s) = .execute →
      (noResponder s.pc.toNat → step s = .fault (.fetchNoResponder s.pc)) ∧
      ((inRom s.pc.toNat ∨ inSpm s.pc.toNat ∨ inWritableDevice s.pc.toNat) → s.pc.toNat ∈ s.stored →
        step s = .refused (.fetchOfStoredWord s.pc)) ∧
      ((inRom s.pc.toNat ∨ inSpm s.pc.toNat) → s.pc.toNat ∉ s.stored →
        decodeWord (readWord s.mem s.pc.toNat) = .reservedField →
        step s = .refused (.reservedField (readWord s.mem s.pc.toNat)))) ∧
    (noResponder s.pc.toNat → fetchAndExecute s = .fault (.fetchNoResponder s.pc)) ∧
    ((inRom s.pc.toNat ∨ inSpm s.pc.toNat ∨ inWritableDevice s.pc.toNat) → s.pc.toNat ∈ s.stored →
      fetchAndExecute s = .refused (.fetchOfStoredWord s.pc)) ∧
    ((inRom s.pc.toNat ∨ inSpm s.pc.toNat) → s.pc.toNat ∉ s.stored →
      decodeWord (readWord s.mem s.pc.toNat) = .reservedField →
      fetchAndExecute s = .refused (.reservedField (readWord s.mem s.pc.toNat)))

/-- An interrupt is taken in place of the instruction at `pc`: with IE = 1, an unmasked line high and no waiting left, the CPU step is
the entry sequence with code 1. Of the machine's step the last clause says it without a hypothesis: with the lines as the device
steps leave them, it is the interrupt entry exactly on that condition, and else it fetches and executes
(spec/60_exceptions.md R205, R207, R209, R212; spec/70_reset_and_hazards.md R270; decision D13, log 18; the code, the entry and EPC
are decisions D9, D10, D11, log 14 to 16; device steps first, log 39; that the choice is made by the counter `irqWait` is the
model's form of R207's free choice, log 18). -/
def Obligations.DueInterruptIsTaken : Prop :=
  (∀ (irq : BitVec 8) (s : State),
    s.status.ie = true → irq &&& ~~~s.intMask ≠ 0#8 → s.env.irqWait = 0 →
    ∃ t, cpuStep irq s = .next t ∧ entered 1#3 s t) ∧
  (∀ s : State,
    let u := deviceSteps s
    let irq := irqLines u
    entered 1#3 u (enterException .externalInterrupt u) ∧
    step s =
      if s.status.ie = true ∧ irq &&& ~~~s.intMask ≠ 0#8 ∧ s.env.irqWait = 0 then
        .next (enterException .externalInterrupt u)
      else fetchAndExecute (noteWait irq u))

/-- With IE = 0, or with every asserted line masked, no interrupt is taken: the CPU step fetches and executes, in a state
that differs only in the model's own counters (spec/60_exceptions.md R205, R207; decision D13, log 18). -/
def Obligations.HeldOffInterruptIsNotTaken : Prop :=
  ∀ (irq : BitVec 8) (s : State),
    (s.status.ie = false ∨ irq &&& ~~~s.intMask = 0#8) →
    ∃ k, cpuStep irq s = fetchAndExecute { s with env := k }

/-- The fairness of R207: if at every boundary of a run the interrupt stays enabled and deliverable, it is taken within the
wait that stands at the first of them, whatever the free values are (spec/60_exceptions.md R207; decision D13, log 18). The
states `f k` are those at the boundaries, after the device steps. -/
def Obligations.DeliverableInterruptIsEventuallyTaken : Prop :=
  ∀ (n : Nat) (irqs : Nat → BitVec 8) (f : Nat → State),
    (f 0).env.irqWait ≤ n →
    (∀ k ≤ n, (f k).status.ie = true ∧ irqs k &&& ~~~(f k).intMask ≠ 0#8) →
    (∀ k < n, ∃ u, cpuStep (irqs k) (f k) = .next u ∧ f (k + 1) = deviceSteps u) →
    ∃ k ≤ n, cpuStep (irqs k) (f k) = .next (enterException .externalInterrupt (f k))

/-- Device steps change the devices and the model's own counters, nothing of the CPU or of memory; of the GPIO block they change the
levels of the pins only, so Output Port, the value kept for Inout Port and Inout Direction hold what was last written
(spec/70_reset_and_hazards.md R269; spec/20_memory.md R71, R84; spec/60_exceptions.md R243, R244, R245; general knowledge of the
spec, log 29). That they fall before the CPU step is the model's choice (log 39), as is the last clause: the boundaries that a
deliverable interrupt still waits, a counter of the model's own, are counted at the CPU step and not here (log 18, 30). -/
def Obligations.DeviceStepsLeaveCpuAndMemory : Prop :=
  ∀ s : State, (deviceSteps s).gpr = s.gpr ∧ (deviceSteps s).pc = s.pc ∧ (deviceSteps s).pending = s.pending ∧
    sameControl s (deviceSteps s) ∧ sameMemory s (deviceSteps s) ∧
    (deviceSteps s).gpio.out = s.gpio.out ∧ (deviceSteps s).gpio.inoutData = s.gpio.inoutData ∧
    (deviceSteps s).gpio.inoutDir = s.gpio.inoutDir ∧
    (deviceSteps s).env.irqWait = s.env.irqWait

/-! ### Logic, arithmetic, shift -/

/-- ANDR, ORR, XORR in every state: the bitwise function of the two sources into Rc, and nothing else but the program counter
(spec/40_logical.md R130, R132, R134). -/
def Obligations.LogicRegisterInstructions : Prop :=
  ∀ (ra rb rc : Reg) (s : State),
    (decodeWord (encodeR3 0x00#6 ra rb rc) = .instr (.andr ra rb rc) ∧
      ∃ t, exec (.andr ra rb rc) s = .next t ∧ writesReg s t rc (readReg s ra &&& readReg s rb)) ∧
    (decodeWord (encodeR3 0x02#6 ra rb rc) = .instr (.orr ra rb rc) ∧
      ∃ t, exec (.orr ra rb rc) s = .next t ∧ writesReg s t rc (readReg s ra ||| readReg s rb)) ∧
    (decodeWord (encodeR3 0x04#6 ra rb rc) = .instr (.xorr ra rb rc) ∧
      ∃ t, exec (.xorr ra rb rc) s = .next t ∧ writesReg s t rc (readReg s ra ^^^ readReg s rb))

/-- ANDI, ORI, XORI in every state: the bitwise function of the source and the zero-extended immediate into Rb, and nothing
else but the program counter (spec/40_logical.md R131, R133, R135; spec/30_encoding.md R110). -/
def Obligations.LogicImmediateInstructions : Prop :=
  ∀ (ra rb : Reg) (imm : Imm) (s : State),
    (decodeWord (encodeR2I 0x01#6 ra rb imm) = .instr (.andi ra rb imm) ∧
      ∃ t, exec (.andi ra rb imm) s = .next t ∧ writesReg s t rb (readReg s ra &&& (0#16 ++ imm))) ∧
    (decodeWord (encodeR2I 0x03#6 ra rb imm) = .instr (.ori ra rb imm) ∧
      ∃ t, exec (.ori ra rb imm) s = .next t ∧ writesReg s t rb (readReg s ra ||| (0#16 ++ imm))) ∧
    (decodeWord (encodeR2I 0x05#6 ra rb imm) = .instr (.xori ra rb imm) ∧
      ∃ t, exec (.xori ra rb imm) s = .next t ∧ writesReg s t rb (readReg s ra ^^^ (0#16 ++ imm)))

/-- ADDUR, ADDUI, SUBUR in every state: the sum or difference modulo 2^32, the immediate sign-extended, and never an
exception (spec/41_arithmetic.md R144, R145, R147). -/
def Obligations.UnsignedArithmeticInstructions : Prop :=
  ∀ (ra rb rc : Reg) (imm : Imm) (s : State),
    (decodeWord (encodeR3 0x08#6 ra rb rc) = .instr (.addur ra rb rc) ∧
      ∃ t, exec (.addur ra rb rc) s = .next t ∧ writesReg s t rc (readReg s ra + readReg s rb)) ∧
    (decodeWord (encodeR2I 0x09#6 ra rb imm) = .instr (.addui ra rb imm) ∧
      ∃ t, exec (.addui ra rb imm) s = .next t ∧ writesReg s t rb (readReg s ra + imm.signExtend 32)) ∧
    (decodeWord (encodeR3 0x0B#6 ra rb rc) = .instr (.subur ra rb rc) ∧
      ∃ t, exec (.subur ra rb rc) s = .next t ∧ writesReg s t rc (readReg s ra - readReg s rb))

/-- ADDSR, ADDSI, SUBSR: by the two sign tests of their pseudocode, either ArithmeticOverflow is raised and the destination
keeps its value, or the wrapped result is written and nothing else changes but the program counter
(spec/41_arithmetic.md R142, R143, R146). -/
def Obligations.SignedArithmeticInstructions : Prop :=
  ∀ (ra rb rc : Reg) (imm : Imm) (s : State),
    let a := readReg s ra
    let b := readReg s rb
    let k : Word := imm.signExtend 32
    let addTest := fun (x y : Word) =>
      (0 ≤ x.toInt ∧ 0 ≤ y.toInt ∧ (x + y).toInt < 0) ∨ (x.toInt < 0 ∧ y.toInt < 0 ∧ 0 ≤ (x + y).toInt)
    let subTest := fun (x y : Word) =>
      (0 ≤ x.toInt ∧ y.toInt < 0 ∧ (x - y).toInt < 0) ∨ (x.toInt < 0 ∧ 0 ≤ y.toInt ∧ 0 ≤ (x - y).toInt)
    (decodeWord (encodeR3 0x06#6 ra rb rc) = .instr (.addsr ra rb rc) ∧
      (addTest a b → exec (.addsr ra rb rc) s = .next (enterException .arithmeticOverflow s)) ∧
      (¬ addTest a b → ∃ t, exec (.addsr ra rb rc) s = .next t ∧ writesReg s t rc (a + b))) ∧
    (decodeWord (encodeR2I 0x07#6 ra rb imm) = .instr (.addsi ra rb imm) ∧
      (addTest a k → exec (.addsi ra rb imm) s = .next (enterException .arithmeticOverflow s)) ∧
      (¬ addTest a k → ∃ t, exec (.addsi ra rb imm) s = .next t ∧ writesReg s t rb (a + k))) ∧
    (decodeWord (encodeR3 0x0A#6 ra rb rc) = .instr (.subsr ra rb rc) ∧
      (subTest a b → exec (.subsr ra rb rc) s = .next (enterException .arithmeticOverflow s)) ∧
      (¬ subTest a b → ∃ t, exec (.subsr ra rb rc) s = .next t ∧ writesReg s t rc (a - b)))

/-- The signed instructions compute exactly or trap: they write a result whose signed value is the exact sum or difference
when it fits in 32 bits, and take ArithmeticOverflow when it does not (spec/41_arithmetic.md R140, R141, "derived: from the
two sign tests"; spec/60_exceptions.md R200, R212; the code, the entry sequence and EPC are decisions D9, D10, D11, log 14 to
16). -/
def Obligations.SignedResultIsExactOrTraps : Prop :=
  ∀ (ra rb rc : Reg) (imm : Imm) (s : State),
    let fits := fun (v : Int) => -2147483648 ≤ v ∧ v ≤ 2147483647
    let outcome := fun (i : Instr) (d : Reg) (v : Int) =>
      (fits v → ∃ t, exec i s = .next t ∧ (readReg t d).toInt = v ∧ onlyRegs [d] s t) ∧
      (¬ fits v → ∃ t, exec i s = .next t ∧ entered 3#3 s t)
    outcome (.addsr ra rb rc) rc ((readReg s ra).toInt + (readReg s rb).toInt) ∧
    outcome (.addsi ra rb imm) rb ((readReg s ra).toInt + imm.toInt) ∧
    outcome (.subsr ra rb rc) rc ((readReg s ra).toInt - (readReg s rb).toInt)

/-- SHRLR, SHRLI, SHLLR, SHLLI in every state: the shift by the low five bits of the amount, zeros shifted in, and nothing else
changed but the program counter (spec/42_shift.md R150 to R154). -/
def Obligations.ShiftInstructions : Prop :=
  ∀ (ra rb rc : Reg) (imm : Imm) (s : State),
    (decodeWord (encodeR3 0x0C#6 ra rb rc) = .instr (.shrlr ra rb rc) ∧
      ∃ t, exec (.shrlr ra rb rc) s = .next t ∧ writesReg s t rc (readReg s ra >>> ((readReg s rb).toNat % 32))) ∧
    (decodeWord (encodeR2I 0x0D#6 ra rb imm) = .instr (.shrli ra rb imm) ∧
      ∃ t, exec (.shrli ra rb imm) s = .next t ∧ writesReg s t rb (readReg s ra >>> (imm.toNat % 32))) ∧
    (decodeWord (encodeR3 0x0E#6 ra rb rc) = .instr (.shllr ra rb rc) ∧
      ∃ t, exec (.shllr ra rb rc) s = .next t ∧ writesReg s t rc (readReg s ra <<< ((readReg s rb).toNat % 32))) ∧
    (decodeWord (encodeR2I 0x0F#6 ra rb imm) = .instr (.shlli ra rb imm) ∧
      ∃ t, exec (.shlli ra rb imm) s = .next t ∧ writesReg s t rb (readReg s ra <<< (imm.toNat % 32)))

/-! ### Branches -/

/-- BE, BNE, BSGT, BUGT outside a delay slot: the next instruction is the slot; the branch is taken exactly when the condition
holds, to `pc + 4 + (sext_32(imm) << 2)`; nothing else changes (spec/43_branch.md R160 to R165; the slot is decision D6, the
unit of the displacement decision D4, log 9, 11). -/
def Obligations.ConditionalBranches : Prop :=
  ∀ (ra rb : Reg) (imm : Imm) (s : State), s.pending = .none → s.pc.toNat % 4 = 0 →
    let a := readReg s ra
    let b := readReg s rb
    let outcome := fun (i : Instr) (taken : Prop) =>
      ∃ t, exec i s = .next t ∧ onlyRegs [] s t ∧ t.pc = s.pc + 4#32 ∧
        (taken → ∃ g : WordAddr, t.pending = .slot (some g) ∧
          g ++ 0#2 = s.pc + 4#32 + ((imm.signExtend 32 : Word) <<< 2)) ∧
        (¬ taken → t.pending = .slot none)
    outcome (.be ra rb imm) (a = b) ∧
    outcome (.bne ra rb imm) (a ≠ b) ∧
    outcome (.bsgt ra rb imm) (a.toInt < b.toInt) ∧
    outcome (.bugt ra rb imm) (a.toNat < b.toNat)

/-- JMP and CALL outside a delay slot: the target is bits 31:2 of the register as it was before; CALL writes `r31` with the
address of the CALL plus an offset that is 4 or 8 (spec/43_branch.md R160, R166, R167; the slot is decision D6, the offset is
the open parameter of decision D8, log 5, 9). -/
def Obligations.RegisterJumps : Prop :=
  ∀ (ra : Reg) (s : State), s.pending = .none →
    (∃ t, exec (.jmp ra) s = .next t ∧ onlyRegs [] s t ∧ t.pc = s.pc + 4#32 ∧
      t.pending = .slot (some ((readReg s ra).extractLsb' 2 30))) ∧
    (∃ t, exec (.call ra) s = .next t ∧ onlyRegs [31] s t ∧ t.pc = s.pc + 4#32 ∧
      t.pending = .slot (some ((readReg s ra).extractLsb' 2 30)) ∧
      readReg t 31 = s.pc + Config.callLinkOffset ∧ (Config.callLinkOffset = 4#32 ∨ Config.callLinkOffset = 8#32))

/-- A branch instruction in a delay slot is refused (spec/43_branch.md R168, decision D7, log 10). -/
def Obligations.BranchInDelaySlotIsRefused : Prop :=
  ∀ (i : Instr) (s : State), i.isBranch = true → s.pending ≠ .none → exec i s = .refused .branchInDelaySlot

/-- The delay slot executes and only then does control reach the target: after a branch and an instruction that is no branch,
no EXRT, and takes no exception, the program counter is the target if the branch was taken, else the word after the slot
(spec/43_branch.md R160, decision D6, log 9). -/
def Obligations.SlotExecutesThenTarget : Prop :=
  ∀ (i j : Instr) (s u v : State) (target : Option WordAddr),
    i.isBranch = true → j.isBranch = false → j ≠ .exrt →
    exec i s = .next u → u.pending = .slot target → exec j u = .next v → (∀ c, v ≠ enterException c u) →
    u.pc = s.pc + 4#32 ∧ v.pending = .none ∧
    (∀ g, target = some g → v.pc = g ++ 0#2) ∧ (target = none → v.pc = s.pc + 8#32)

/-- Every instruction that is no branch and no EXRT moves on by R160, or takes an exception that R201 lists for it
(spec/10_state.md R26, spec/43_branch.md R160, spec/60_exceptions.md R201; decision D6, log 9). -/
def Obligations.OtherInstructionsMoveOn : Prop :=
  ∀ (i : Instr) (s t : State), i.isBranch = false → i ≠ .exrt → exec i s = .next t →
    movesOn s t ∨ ∃ c, raises i = some c ∧ t = enterException c s

/-! ### Memory access -/

/-- LDW and STW require `ADDR[1:0] = 00`: at any other effective address they raise AddressMissAlign and read and write
nothing; at an aligned one they take no exception (spec/20_memory.md R82, spec/44_memory_access.md R170 to R172; the sign
extension of the offset is decision D5, log 12). -/
def Obligations.MisalignedAccessTraps : Prop :=
  ∀ (ra rb : Reg) (imm : Imm) (s : State),
    let a := readReg s ra + imm.signExtend 32
    (a.extractLsb' 0 2 ≠ 0#2 →
      (∃ t, exec (.ldw ra rb imm) s = .next t ∧ t = enterException .addressMissAlign s ∧
        sameRegsBut [] s t ∧ sameMemory s t ∧ sameDevices s t) ∧
      (∃ t, exec (.stw ra rb imm) s = .next t ∧ t = enterException .addressMissAlign s ∧
        sameRegsBut [] s t ∧ sameMemory s t ∧ sameDevices s t)) ∧
    (a.extractLsb' 0 2 = 0#2 →
      (∀ t, exec (.ldw ra rb imm) s = .next t → sameControl s t) ∧
      (∀ t, exec (.stw ra rb imm) s = .next t → sameControl s t))

/-- LDW from ROM or SPM: the word at the address into Rb, and nothing else but the program counter (spec/44_memory_access.md
R170, R171; spec/20_memory.md R78; the sign extension of the offset is decision D5, log 12). -/
def Obligations.LoadFromMemory : Prop :=
  ∀ (ra rb : Reg) (imm : Imm) (s : State),
    let a := readReg s ra + imm.signExtend 32
    a.toNat % 4 = 0 → (inRom a.toNat ∨ inSpm a.toNat) →
    ∃ t, exec (.ldw ra rb imm) s = .next t ∧ writesReg s t rb (readWord s.mem a.toNat)

/-- LDW from each of the ten device registers: its fields at their bit positions, reserved bits 0, into Rb, and nothing else
but the program counter (spec/44_memory_access.md R170, R171; spec/60_exceptions.md R220 to R225, R230 to R235, R240 to R245;
general knowledge of the spec, log 27 to 29; the sign extension of the offset is decision D5, log 12). -/
def Obligations.LoadFromDevice : Prop :=
  ∀ (ra rb : Reg) (imm : Imm) (s : State) (a v : Word),
    (a, v) ∈
      [(0x40000000#32, 0#30 ++ BitVec.ofBool s.timer.periodic ++ BitVec.ofBool s.timer.start),
       (0x40000004#32, 0#31 ++ BitVec.ofBool s.timer.irq),
       (0x40000008#32, s.timer.expr),
       (0x4000000C#32, s.timer.counter),
       (0x60000000#32, 0#30 ++ BitVec.ofBool s.uart.txI ++ BitVec.ofBool s.uart.rxI),
       (0x60000004#32, 0#24 ++ s.uart.rx),
       (0x80000000#32, 0#28 ++ s.gpio.inPins),
       (0x80000004#32, s.gpio.out),
       (0x80000008#32, inoutLevel s.gpio),
       (0x8000000C#32, s.gpio.inoutDir)] →
    readReg s ra + imm.signExtend 32 = a →
    ∃ t, exec (.ldw ra rb imm) s = .next t ∧ writesReg s t rb v

/-- LDW where no device answers is stuck (spec/20_memory.md R74, spec/44_memory_access.md R170, R171; decision D20, log 25; the sign
extension of the offset is decision D5, log 12). -/
def Obligations.LoadWithNoResponderIsStuck : Prop :=
  ∀ (ra rb : Reg) (imm : Imm) (s : State),
    let a := readReg s ra + imm.signExtend 32
    a.toNat % 4 = 0 → noResponder a.toNat → exec (.ldw ra rb imm) s = .fault (.loadNoResponder a)

/-- STW to the scratch pad memory: the whole word at the effective address becomes `x[Rb]`, the word counts as stored, and
every other byte, every register and every device is as before (spec/44_memory_access.md R170, R172; spec/20_memory.md R79; the
sign extension of the offset is decision D5, the record of stored words serves decision D19, log 12, 24). -/
def Obligations.StoreToScratchPad : Prop :=
  ∀ (ra rb : Reg) (imm : Imm) (s : State),
    let a := effectiveAddress (readReg s ra) imm
    a.toNat % 4 = 0 → inSpm a.toNat →
    ∃ t, exec (.stw ra rb imm) s = .next t ∧
      readWord t.mem a.toNat = readReg s rb ∧
      (∀ x, (x < a.toNat ∨ a.toNat + 4 ≤ x) → readByte t.mem x = readByte s.mem x) ∧
      (∀ x, x ∈ t.stored ↔ x = a.toNat ∨ x ∈ s.stored) ∧
      sameRegsBut [] s t ∧ sameControl s t ∧ sameDevices s t

/-- STW to each device register that takes a write: that device's write rule, and nothing else but the program counter
(spec/44_memory_access.md R170, R172; spec/60_exceptions.md R220 to R225, R230 to R235, R240 to R245; the write rules are general
knowledge of the spec, decision D24, log 27 to 29; the sign extension of the offset is decision D5, log 12). The word counts as
stored (spec/20_memory.md R90, decision D19; that it does in a device register too is the model's reading, log 41). One clause is
the model's own choice: a write of Inout Port keeps every bit, those whose direction is input too (log 42). -/
def Obligations.StoreToDevice : Prop :=
  ∀ (ra rb : Reg) (imm : Imm) (s : State),
    let a := readReg s ra + imm.signExtend 32
    let v := readReg s rb
    let stores := fun (timer : Timer) (uart : Uart) (gpio : Gpio) =>
      ∃ t, exec (.stw ra rb imm) s = .next t ∧ t.timer = timer ∧ t.uart = uart ∧ t.gpio = gpio ∧ t.env = s.env ∧
        sameRegsBut [] s t ∧ sameControl s t ∧ (∀ x, readByte t.mem x = readByte s.mem x) ∧
        (∀ x, x ∈ t.stored ↔ x = a.toNat ∨ x ∈ s.stored)
    (a = 0x40000000#32 →
      stores { s.timer with periodic := v.getLsbD 1, start := v.getLsbD 0 } s.uart s.gpio) ∧
    (a = 0x40000004#32 → stores { s.timer with irq := v.getLsbD 0 } s.uart s.gpio) ∧
    (a = 0x40000008#32 → stores { s.timer with expr := v } s.uart s.gpio) ∧
    (a = 0x4000000C#32 → stores { s.timer with counter := v } s.uart s.gpio) ∧
    (a = 0x60000000#32 → stores s.timer { s.uart with txI := v.getLsbD 1, rxI := v.getLsbD 0 } s.gpio) ∧
    (a = 0x60000004#32 → s.uart.tx = none → stores s.timer { s.uart with tx := some (v.extractLsb' 0 8) } s.gpio) ∧
    (a = 0x80000004#32 → stores s.timer s.uart { s.gpio with out := v }) ∧
    (a = 0x80000008#32 → stores s.timer s.uart { s.gpio with inoutData := v }) ∧
    (a = 0x8000000C#32 → stores s.timer s.uart { s.gpio with inoutDir := v })

/-- The stores that are refused: into the ROM window, where no device answers, to the GPIO Input Port, and to UART Data during
a transmission (spec/20_memory.md R74, R91; spec/44_memory_access.md R170, R172; spec/60_exceptions.md R235, R242; decisions D20,
D24, log 25, 28, 29; the sign extension of the offset is decision D5, log 12). -/
def Obligations.StoreRefusals : Prop :=
  ∀ (ra rb : Reg) (imm : Imm) (s : State),
    let a := readReg s ra + imm.signExtend 32
    (a.toNat % 4 = 0 → a.toNat < 0x20000000 → exec (.stw ra rb imm) s = .refused (.storeToRom a)) ∧
    (a.toNat % 4 = 0 → 0x20000000 ≤ a.toNat → noResponder a.toNat →
      exec (.stw ra rb imm) s = .refused (.storeNoResponder a)) ∧
    (a = 0x80000000#32 → exec (.stw ra rb imm) s = .refused .gpioInputPortWrite) ∧
    (a = 0x60000004#32 → s.uart.tx.isSome = true → exec (.stw ra rb imm) s = .refused .uartTransmitBusy)

/-- An LDW returns the value of the latest STW to the same word of the scratch pad memory: whatever instructions come between, as
long as none of them is an STW to that word, and whatever else happens between them that leaves memory as it was
(spec/20_memory.md R87, decision D18, log 23). -/
def Obligations.LoadReturnsLatestStore : Prop :=
  ∀ (ra rb qa qb : Reg) (imm jmm : Imm) (s t u : State) (between : List Instr),
    let a := effectiveAddress (readReg s ra) imm
    a.toNat % 4 = 0 → inSpm a.toNat → exec (.stw ra rb imm) s = .next t →
    runsWithoutStoreTo a between t u →
    effectiveAddress (readReg u qa) jmm = a →
    ∃ v, exec (.ldw qa qb jmm) u = .next v ∧ readReg v qb = readReg s rb ∧ onlyRegs [qb] u v

/-! ### Trap, privileged instructions, exceptions -/

/-- Taking an exception, for every cause: the nine assignments of the entry sequence, with the code of the cause, and nothing
else (spec/60_exceptions.md R200, R212, R213; decisions D9, D10, D11, log 14 to 16). -/
def Obligations.ExceptionEntrySequence : Prop :=
  ∀ s : State,
    entered 1#3 s (enterException .externalInterrupt s) ∧
    entered 2#3 s (enterException .undefinedInstruction s) ∧
    entered 3#3 s (enterException .arithmeticOverflow s) ∧
    entered 4#3 s (enterException .addressMissAlign s) ∧
    entered 5#3 s (enterException .trap s) ∧
    entered 6#3 s (enterException .privilegeViolation s)

/-- TRAP in every state and both modes is the exception entry with code 5 and nothing else (spec/45_trap.md R180; decisions D9,
D10, D11, log 14 to 16). -/
def Obligations.TrapTakesException : Prop :=
  ∀ s : State, ∃ t, exec .trap s = .next t ∧ entered 5#3 s t

/-- RDCR in kernel mode: each of the eleven implemented control registers, its fields at their bit positions and zero elsewhere,
into Rb, and nothing else but the program counter (spec/46_privileged.md R187; spec/10_state.md R27 to R40; decisions D16, D17,
D22, D29, log 7, 8, 21, 22, 33). -/
def Obligations.RdcrReadsControlRegisters : Prop :=
  ∀ (ca : CtrlNum) (rb : Reg) (v : Word) (s : State), s.status.em = .kernel →
    (ca, v) ∈
      [((0x00 : CtrlNum), 0#30 ++ BitVec.ofBool s.status.ie ++ 0#1),
       (0x01, 0#30 ++ BitVec.ofBool s.prevStatus.ie ++ BitVec.ofBool (s.prevStatus.em == .user)),
       (0x02, s.pc),
       (0x03, s.epc ++ 0#2),
       (0x04, s.expVec ++ 0#2),
       (0x05, 0#28 ++ BitVec.ofBool s.excCode.d ++ s.excCode.code),
       (0x06, 0#24 ++ s.intMask),
       (0x07, 0#24 ++ irqLines s),
       (0x1d, 4096#32),
       (0x1e, 32768#32),
       (0x1f, Config.cpuInfo)] →
    ∃ t, exec (.rdcr ca rb) s = .next t ∧ writesReg s t rb v

/-- WRCR in kernel mode: the writable fields of each writable control register, from the same bit positions of `x[Ra]`, and
nothing else but the program counter (spec/46_privileged.md R188; spec/10_state.md R28 to R34, R40; decision D16, log 21). -/
def Obligations.WrcrWritesControlRegisters : Prop :=
  ∀ (ra : Reg) (s : State), s.status.em = .kernel →
    let v := readReg s ra
    let st : Status := { ie := v.getLsbD 1, em := if v.getLsbD 0 then .user else .kernel }
    let writes := fun (cb : CtrlNum) (status prevStatus : Status) (epc expVec : WordAddr) (exc : ExcCode)
        (mask : BitVec 8) =>
      ∃ t, exec (.wrcr ra cb) s = .next t ∧ t.status = status ∧ t.prevStatus = prevStatus ∧ t.epc = epc ∧
        t.expVec = expVec ∧ t.excCode = exc ∧ t.intMask = mask ∧
        sameRegsBut [] s t ∧ sameMemory s t ∧ sameDevices s t
    writes 0x00 st s.prevStatus s.epc s.expVec s.excCode s.intMask ∧
    writes 0x01 s.status st s.epc s.expVec s.excCode s.intMask ∧
    writes 0x03 s.status s.prevStatus (v.extractLsb' 2 30) s.expVec s.excCode s.intMask ∧
    writes 0x04 s.status s.prevStatus s.epc (v.extractLsb' 2 30) s.excCode s.intMask ∧
    writes 0x05 s.status s.prevStatus s.epc s.expVec { d := v.getLsbD 3, code := v.extractLsb' 0 3 } s.intMask ∧
    writes 0x06 s.status s.prevStatus s.epc s.expVec s.excCode (v.extractLsb' 0 8)

/-- A WRCR is complete before the next instruction: an RDCR directly after it, still in kernel mode, reads the new value, with
zeros where the register has no writable bit (spec/46_privileged.md R190; spec/10_state.md R40; decisions D16, D26, log 21,
31). -/
def Obligations.RdcrAfterWrcrReadsNewValue : Prop :=
  ∀ (ra rb : Reg) (n : CtrlNum) (mask : Word) (s t : State),
    (n, mask) ∈ [((0x00 : CtrlNum), 0x00000003#32), (0x01, 0x00000003#32), (0x03, 0xFFFFFFFC#32), (0x04, 0xFFFFFFFC#32),
      (0x05, 0x0000000F#32), (0x06, 0x000000FF#32)] →
    s.status.em = .kernel → exec (.wrcr ra n) s = .next t → t.status.em = .kernel →
    ∃ u, exec (.rdcr n rb) t = .next u ∧ readReg u rb = readReg s ra &&& mask

/-- In kernel mode RDCR and WRCR of numbers 0x08 to 0x1c are refused, and WRCR of the five read-only registers is refused
(spec/10_state.md R39, R41; decision D16, log 21). -/
def Obligations.ControlRegisterRefusals : Prop :=
  ∀ (r : Reg) (n : CtrlNum) (s : State), s.status.em = .kernel →
    (0x08 ≤ n.val → n.val ≤ 0x1c →
      exec (.rdcr n r) s = .refused (.unimplementedControlRegister n) ∧
      exec (.wrcr r n) s = .refused (.unimplementedControlRegister n)) ∧
    (n.val ∈ [0x02, 0x07, 0x1d, 0x1e, 0x1f] → exec (.wrcr r n) s = .refused (.readOnlyControlRegister n))

/-- The mode matters to RDCR, WRCR and EXRT only: in user mode each of them raises PrivilegeViolation, whatever its operands, and
does nothing else; every other instruction, and the fetch, does the same in both modes (spec/46_privileged.md R185, R186;
spec/20_memory.md R86; the code of the exception is decision D9, log 14). -/
def Obligations.ModeMattersToPrivilegedInstructionsOnly : Prop :=
  (∀ (i : Instr) (s : State), i.isPrivileged = true → s.status.em = .user →
    exec i s = .next (enterException .privilegeViolation s)) ∧
  (∀ (i : Instr) (s : State) (m : Mode), i.isPrivileged = false →
    (∀ t, exec i s = .next t → ∃ u, exec i (withMode m s) = .next u ∧ sameButStatus t u) ∧
    (∀ r, exec i s = .fault r → exec i (withMode m s) = .fault r) ∧
    (∀ r, exec i s = .refused r → exec i (withMode m s) = .refused r)) ∧
  (∀ (s : State) (m : Mode), fetch (withMode m s) = fetch s)

/-- EXRT in kernel mode: Status from Previous Status, the program counter from EPC, no delay slot and no pending branch left,
and nothing else (spec/46_privileged.md R189; the restore of IE is decision D12, log 17). -/
def Obligations.ExrtReturns : Prop :=
  ∀ s : State, s.status.em = .kernel →
    ∃ t, exec .exrt s = .next t ∧ t.status = s.prevStatus ∧ t.pc = s.epc ++ 0#2 ∧ t.pending = .none ∧
      t.prevStatus = s.prevStatus ∧ t.epc = s.epc ∧ t.excCode = s.excCode ∧ t.expVec = s.expVec ∧
      t.intMask = s.intMask ∧ sameRegsBut [] s t ∧ sameMemory s t ∧ sameDevices s t

/-- An EXRT directly after any exception entry undoes it: the mode, the interrupt enable and the program counter are those of the
interrupted program, every register too; only a pending branch is lost (spec/60_exceptions.md R212, R214, R215; decisions D10
to D12, log 15 to 17). -/
def Obligations.ExrtUndoesExceptionEntry : Prop :=
  ∀ (c : Cause) (s : State), s.pc.toNat % 4 = 0 →
    ∃ t, exec .exrt (enterException c s) = .next t ∧ t.pc = s.pc ∧ t.status = s.status ∧ t.pending = .none ∧
      sameRegsBut [] s t ∧ sameMemory s t ∧ sameDevices s t

/-! ### The whole machine -/

/-- Every step keeps the invariant: the program counter a multiple of 4, memory in canonical form, the record of stored words in
canonical form (spec/20_memory.md R83; the forms of the lists are the model's, log 2, 24). -/
def Obligations.StepKeepsTheInvariant : Prop :=
  ∀ s t : State, Inv s → step s = .next t → Inv t

/-- The state after reset meets the invariant (spec/10_state.md R25, R50). -/
def Obligations.ResetMeetsTheInvariant : Prop := Inv State.reset

/-- No step changes a byte outside the scratch pad memory: the Boot ROM keeps its image (spec/20_memory.md R73, R91). -/
def Obligations.StepNeverChangesRom : Prop :=
  ∀ s t : State, step s = .next t → ∀ a, ¬ inSpm a → readByte t.mem a = readByte s.mem a

/-- From user mode a step either leaves every control register as it was, or is an exception entry, which goes to kernel mode with
interrupts off at the handler address, saving Status; Exception Vector and Interrupt Mask never change
(spec/60_exceptions.md R218, R212). -/
def Obligations.UserModeLeavesOnlyByException : Prop :=
  ∀ s t : State, s.status.em = .user → step s = .next t →
    t.expVec = s.expVec ∧ t.intMask = s.intMask ∧
    (sameControl s t ∨
      (t.status = { ie := false, em := .kernel } ∧ t.prevStatus = s.status ∧ t.pc = s.expVec ++ 0#2 ∧
        t.pending = .none ∧ (s.pc.toNat % 4 = 0 → t.epc ++ 0#2 = s.pc) ∧ sameRegsBut [] s t ∧ sameMemory s t))

/-- The only ways from kernel mode to user mode: a WRCR to Status with bit 0 = 1, or an EXRT with Previous Status.EM = 1
(spec/60_exceptions.md R218). -/
def Obligations.KernelModeLeavesOnlyByWrcrOrExrt : Prop :=
  ∀ (i : Instr) (s t : State), s.status.em = .kernel → exec i s = .next t → t.status.em = .user →
    (∃ ra, i = .wrcr ra 0x00 ∧ (readReg s ra).getLsbD 0 = true) ∨ (i = .exrt ∧ s.prevStatus.em = .user)

/-- The writers of the control registers: Exception Vector and Interrupt Mask change by WRCR only; EPC, Exception Code and Previous
Status by WRCR and exception entry only; Status by WRCR, EXRT and exception entry only (spec/10_state.md R28 to R34). -/
def Obligations.ControlRegisterWriters : Prop :=
  ∀ (i : Instr) (s t : State), exec i s = .next t → (∀ ra cb, i ≠ .wrcr ra cb) →
    t.expVec = s.expVec ∧ t.intMask = s.intMask ∧
    ((∃ c, raises i = some c ∧ t = enterException c s) ∨
      (t.epc = s.epc ∧ t.excCode = s.excCode ∧ t.prevStatus = s.prevStatus ∧ (i ≠ .exrt → t.status = s.status)))

/-- A non-privileged instruction that R201 does not list takes no exception, and a listed one either takes its listed exception with
no other effect or leaves the control registers alone; for RDCR, WRCR and EXRT see `ControlRegisterWriters` and the statements about
each of them (spec/60_exceptions.md R201, spec/00_scope.md R10; the codes are decision D9, log 14). -/
def Obligations.OnlyListedInstructionsRaise : Prop :=
  ∀ (i : Instr) (s t : State), i.isPrivileged = false → exec i s = .next t →
    sameControl s t ∨ ∃ c, raises i = some c ∧ t = enterException c s

/-- Only STW changes memory or a device: every other instruction leaves every byte and every device register as it was, so the CPU
never clears a request by itself (spec/20_memory.md R85, spec/60_exceptions.md R206; decision D29, log 33). -/
def Obligations.OnlyStoresChangeMemoryOrDevices : Prop :=
  ∀ (i : Instr) (s t : State), (∀ ra rb imm, i ≠ .stw ra rb imm) → exec i s = .next t →
    sameMemory s t ∧ sameDevices s t

/-! ### Reset -/

/-- The registers after reset that the spec gives a "Default:" for: the three devices (spec/60_exceptions.md R221, R231, R241), the
program counter, Status, Previous Status, EPC, Exception Vector, Exception Code, Interrupt Mask, Interrupt Request
(spec/10_state.md, the table of the state after reset). -/
def Obligations.ResetValues : Prop :=
  State.reset.pc = 0#32 ∧ State.reset.status = { ie := false, em := .kernel } ∧
  State.reset.prevStatus = { ie := false, em := .kernel } ∧ State.reset.epc = 0#30 ∧ State.reset.expVec = 0#30 ∧
  State.reset.excCode = { d := false, code := 0#3 } ∧ State.reset.intMask = 0xFF#8 ∧ irqLines State.reset = 0#8 ∧
  State.reset.timer = { periodic := false, start := false, irq := false, expr := 0#32, counter := 0#32 } ∧
  State.reset.uart.txI = false ∧ State.reset.uart.rxI = false ∧ State.reset.uart.rx = 0#8 ∧
  gpioRead State.reset.gpio .input = 0#32 ∧ gpioRead State.reset.gpio .output = 0#32 ∧
  gpioRead State.reset.gpio .inout = 0#32 ∧ gpioRead State.reset.gpio .direction = 0#32

/-- The first instruction after reset is the first word of the Boot ROM, whatever image it holds, executed at address 0 in kernel
mode with interrupts disabled (spec/70_reset_and_hazards.md R262). -/
def Obligations.FirstInstructionAfterReset : Prop :=
  ∀ image : Memory, ∃ u,
    step { State.reset with mem := image } = executeWord (readWord image 0) u ∧
    u.pc = 0#32 ∧ u.status.em = .kernel ∧ u.status.ie = false ∧ u.pending = .none ∧ u.mem = image

/-! ### Devices -/

/-- A started timer whose counter has `n` to go expires at its step `n + 1` and not before: I is set, the counter is 0, and it goes on
exactly if it is periodic; a stopped timer does nothing (spec/60_exceptions.md R225, general knowledge of the spec, log 27). -/
def Obligations.TimerExpiresAtItsCount : Prop :=
  ∀ (t : Timer) (n : Nat),
    (t.start = true → t.expr.toNat = t.counter.toNat + n →
      timerSteps (n + 1) t = { t with irq := true, counter := 0#32, start := t.periodic } ∧
      ∀ k ≤ n, (timerSteps k t).irq = t.irq) ∧
    (t.start = false → timerSteps n t = t)

/-- A started timer expires at some later boundary, with I set and COUNTER cleared there, whether or not I is 1 already and whatever
the rate of its steps, in every run whose CPU steps leave the timer alone; the states `f k` are those before the steps
(spec/60_exceptions.md R225; the rate is free and its fairness the model's form of R225's last sentence, decision D24, log 27). -/
def Obligations.StartedTimerEventuallyExpires : Prop :=
  ∀ f : Nat → State,
    (f 0).timer.start = true →
    (∀ k, (f (k + 1)).timer = (deviceSteps (f k)).timer ∧ (f (k + 1)).env.clock = (deviceSteps (f k)).env.clock ∧
      (f (k + 1)).env.timerWait = (deviceSteps (f k)).env.timerWait) →
    ∃ n, timerExpires (f n)

/-- Line n of Interrupt Request shows the flag that the map gives it: of the lines under any map, and of the machine's own lines, which
RDCR reads and the step tests, under its map (spec/60_exceptions.md R204; spec/10_state.md R35; the map is the open parameter of
decision D23, log 6, 33). -/
def Obligations.IrqLinesShowDeviceFlags : Prop :=
  ∀ (s : State) (n : Fin 8),
    let flag := fun (source : IrqSource) =>
      match source with
      | .constantZero => false
      | .timerI => s.timer.irq
      | .uartRxI => s.uart.rxI
      | .uartTxI => s.uart.txI
    (∀ map : Fin 8 → IrqSource, (irqLinesOf map s).getLsbD n.val = flag (map n)) ∧
    (irqLines s).getLsbD n.val = flag (Config.irqSource n)

/-- Device steps never withdraw a request, and raise one only for its reason: I exactly when the timer expires, RxI exactly when a byte
arrives, which the data register then holds, TxI exactly when the transmission in progress ends. They move the timer by a number of
its clocks and by nothing else, and start no transmission (spec/60_exceptions.md R206, R225, R232, R235;
spec/70_reset_and_hazards.md R269; general knowledge of the spec, log 27, 28, 33). -/
def Obligations.DevicesNeverWithdrawRequests : Prop :=
  ∀ s : State,
    let u := (deviceSteps s).uart
    let received := Config.uartReceives s.env.clock
    (s.timer.irq = true → (deviceSteps s).timer.irq = true) ∧
    (s.timer.start = false → (deviceSteps s).timer = s.timer) ∧
    (∃ n, (deviceSteps s).timer = timerSteps n s.timer) ∧
    ((deviceSteps s).timer.irq = true ↔ s.timer.irq = true ∨ timerExpires s) ∧
    (s.uart.rxI = true → u.rxI = true) ∧
    (s.uart.txI = true → u.txI = true) ∧
    (u.rxI = true ↔ s.uart.rxI = true ∨ ∃ b, received = some b ∧ u.rx = b) ∧
    u.rx = received.getD s.uart.rx ∧
    (u.txI = true ↔ s.uart.txI = true ∨ (s.uart.tx ≠ none ∧ u.tx = none)) ∧
    (u.tx = s.uart.tx ∨ u.tx = none) ∧
    (s.uart.tx = none → u.txI = s.uart.txI)

/-- A read of the Inout Port, bit by bit: the value driven where the direction is output, the pin's level where it is input, 0 where an
input has no pin (spec/60_exceptions.md R244, R245; spec/93_implementation_defined.md U25; general knowledge of the spec, log 29). -/
def Obligations.InoutPortReadsPinLevels : Prop :=
  ∀ (g : Gpio) (k : Nat), k < 32 →
    (gpioRead g .inout).getLsbD k =
      if g.inoutDir.getLsbD k then g.inoutData.getLsbD k else (decide (k < 16) && g.inoutPins.getLsbD k)
end

