-- ==== Sys2Proof/Laws/Devices.lean ====
section
/-!
SUPPORT. What one clock of the timer does in each of its three cases, how clocks add up, and what the device steps do to the timer
in each case of the wait (spec/60_exceptions.md R225).
-/

namespace Sys2Proof.Machine

theorem timerStep_expired {t : Timer} (hs : t.start = true) (hc : t.counter = t.expr) :
    timerStep t = { t with irq := true, counter := 0#32, start := t.periodic } := by
  simp [timerStep, hs, hc]

theorem timerStep_running {t : Timer} (hs : t.start = true) (hc : t.counter ≠ t.expr) :
    timerStep t = { t with counter := t.counter + 1#32 } := by
  simp [timerStep, hs, hc]

theorem timerStep_stopped {t : Timer} (hs : t.start = false) : timerStep t = t := by
  simp [timerStep, hs]

theorem timerSteps_add (m n : Nat) : ∀ t, timerSteps (m + n) t = timerSteps n (timerSteps m t) := by
  induction m with
  | zero => intro t; rw [Nat.zero_add]; rfl
  | succ m ih => intro t; rw [Nat.add_right_comm]; exact ih _

/-- No clock of the timer withdraws a request. -/
theorem timerSteps_irq (n : Nat) : ∀ t : Timer, t.irq = true → (timerSteps n t).irq = true := by
  induction n with
  | zero => exact fun _ h => h
  | succ n ih =>
    intro t h
    apply ih
    unfold timerStep
    split <;> [rfl; (split <;> exact h)]

theorem deviceSteps_timer_clocked {s : State} (hs : s.timer.start = true) (hw : s.env.timerWait = 0) :
    (deviceSteps s).timer = timerSteps (Config.timerExtraSteps s.env.clock + 1) s.timer := by
  simp [deviceSteps, timerAtBoundary, hs, hw]

theorem deviceSteps_timer_waiting {s : State} (hw : s.env.timerWait ≠ 0) :
    (deviceSteps s).timer = s.timer ∧ (deviceSteps s).env.timerWait + 1 = s.env.timerWait := by
  constructor
  · simp [deviceSteps, timerAtBoundary, hw]
  · simp [deviceSteps, envAtBoundary, hw]
    omega

end Sys2Proof.Machine
end

