-- ==== Sys2Proof/Laws/State.lean ====
section
/-!
SUPPORT. One lemma per field per update of the state, true by rfl, so that no proof unfolds a record update; reads of
general registers through the updates.
-/

namespace Sys2Proof.Machine

variable (s : State)

/-! ### writeReg -/

@[simp] theorem writeReg_gpr (r : Reg) (v : Word) : (writeReg s r v).gpr = s.gpr.set r.val v r.isLt := rfl
@[simp] theorem writeReg_pc (r : Reg) (v : Word) : (writeReg s r v).pc = s.pc := rfl
@[simp] theorem writeReg_status (r : Reg) (v : Word) : (writeReg s r v).status = s.status := rfl
@[simp] theorem writeReg_prevStatus (r : Reg) (v : Word) : (writeReg s r v).prevStatus = s.prevStatus := rfl
@[simp] theorem writeReg_epc (r : Reg) (v : Word) : (writeReg s r v).epc = s.epc := rfl
@[simp] theorem writeReg_expVec (r : Reg) (v : Word) : (writeReg s r v).expVec = s.expVec := rfl
@[simp] theorem writeReg_excCode (r : Reg) (v : Word) : (writeReg s r v).excCode = s.excCode := rfl
@[simp] theorem writeReg_intMask (r : Reg) (v : Word) : (writeReg s r v).intMask = s.intMask := rfl
@[simp] theorem writeReg_pending (r : Reg) (v : Word) : (writeReg s r v).pending = s.pending := rfl
@[simp] theorem writeReg_mem (r : Reg) (v : Word) : (writeReg s r v).mem = s.mem := rfl
@[simp] theorem writeReg_stored (r : Reg) (v : Word) : (writeReg s r v).stored = s.stored := rfl
@[simp] theorem writeReg_timer (r : Reg) (v : Word) : (writeReg s r v).timer = s.timer := rfl
@[simp] theorem writeReg_uart (r : Reg) (v : Word) : (writeReg s r v).uart = s.uart := rfl
@[simp] theorem writeReg_gpio (r : Reg) (v : Word) : (writeReg s r v).gpio = s.gpio := rfl
@[simp] theorem writeReg_env (r : Reg) (v : Word) : (writeReg s r v).env = s.env := rfl

/-! ### advance -/

@[simp] theorem advance_gpr : (advance s).gpr = s.gpr := rfl
@[simp] theorem advance_pc : (advance s).pc = successor s := rfl
@[simp] theorem advance_status : (advance s).status = s.status := rfl
@[simp] theorem advance_prevStatus : (advance s).prevStatus = s.prevStatus := rfl
@[simp] theorem advance_epc : (advance s).epc = s.epc := rfl
@[simp] theorem advance_expVec : (advance s).expVec = s.expVec := rfl
@[simp] theorem advance_excCode : (advance s).excCode = s.excCode := rfl
@[simp] theorem advance_intMask : (advance s).intMask = s.intMask := rfl
@[simp] theorem advance_pending : (advance s).pending = .none := rfl
@[simp] theorem advance_mem : (advance s).mem = s.mem := rfl
@[simp] theorem advance_stored : (advance s).stored = s.stored := rfl
@[simp] theorem advance_timer : (advance s).timer = s.timer := rfl
@[simp] theorem advance_uart : (advance s).uart = s.uart := rfl
@[simp] theorem advance_gpio : (advance s).gpio = s.gpio := rfl
@[simp] theorem advance_env : (advance s).env = s.env := rfl

/-! ### enterSlot -/

@[simp] theorem enterSlot_gpr (g : Option WordAddr) : (enterSlot s g).gpr = s.gpr := rfl
@[simp] theorem enterSlot_pc (g : Option WordAddr) : (enterSlot s g).pc = s.pc + 4#32 := rfl
@[simp] theorem enterSlot_status (g : Option WordAddr) : (enterSlot s g).status = s.status := rfl
@[simp] theorem enterSlot_prevStatus (g : Option WordAddr) : (enterSlot s g).prevStatus = s.prevStatus := rfl
@[simp] theorem enterSlot_epc (g : Option WordAddr) : (enterSlot s g).epc = s.epc := rfl
@[simp] theorem enterSlot_expVec (g : Option WordAddr) : (enterSlot s g).expVec = s.expVec := rfl
@[simp] theorem enterSlot_excCode (g : Option WordAddr) : (enterSlot s g).excCode = s.excCode := rfl
@[simp] theorem enterSlot_intMask (g : Option WordAddr) : (enterSlot s g).intMask = s.intMask := rfl
@[simp] theorem enterSlot_pending (g : Option WordAddr) : (enterSlot s g).pending = .slot g := rfl
@[simp] theorem enterSlot_mem (g : Option WordAddr) : (enterSlot s g).mem = s.mem := rfl
@[simp] theorem enterSlot_stored (g : Option WordAddr) : (enterSlot s g).stored = s.stored := rfl
@[simp] theorem enterSlot_timer (g : Option WordAddr) : (enterSlot s g).timer = s.timer := rfl
@[simp] theorem enterSlot_uart (g : Option WordAddr) : (enterSlot s g).uart = s.uart := rfl
@[simp] theorem enterSlot_gpio (g : Option WordAddr) : (enterSlot s g).gpio = s.gpio := rfl
@[simp] theorem enterSlot_env (g : Option WordAddr) : (enterSlot s g).env = s.env := rfl

/-! ### enterException -/

@[simp] theorem enterException_gpr (c : Cause) : (enterException c s).gpr = s.gpr := rfl
@[simp] theorem enterException_pc (c : Cause) : (enterException c s).pc = byteAddr s.expVec := rfl
@[simp] theorem enterException_status (c : Cause) : (enterException c s).status = { ie := false, em := .kernel } := rfl
@[simp] theorem enterException_prevStatus (c : Cause) : (enterException c s).prevStatus = s.status := rfl
@[simp] theorem enterException_epc (c : Cause) : (enterException c s).epc = wordAddr s.pc := rfl
@[simp] theorem enterException_expVec (c : Cause) : (enterException c s).expVec = s.expVec := rfl
@[simp] theorem enterException_excCode (c : Cause) : (enterException c s).excCode = { d := inDelaySlot s, code := causeCode c } := rfl
@[simp] theorem enterException_intMask (c : Cause) : (enterException c s).intMask = s.intMask := rfl
@[simp] theorem enterException_pending (c : Cause) : (enterException c s).pending = .none := rfl
@[simp] theorem enterException_mem (c : Cause) : (enterException c s).mem = s.mem := rfl
@[simp] theorem enterException_stored (c : Cause) : (enterException c s).stored = s.stored := rfl
@[simp] theorem enterException_timer (c : Cause) : (enterException c s).timer = s.timer := rfl
@[simp] theorem enterException_uart (c : Cause) : (enterException c s).uart = s.uart := rfl
@[simp] theorem enterException_gpio (c : Cause) : (enterException c s).gpio = s.gpio := rfl
@[simp] theorem enterException_env (c : Cause) : (enterException c s).env = s.env := rfl

/-! ### returnFromException -/

@[simp] theorem returnFromException_gpr : (returnFromException s).gpr = s.gpr := rfl
@[simp] theorem returnFromException_pc : (returnFromException s).pc = byteAddr s.epc := rfl
@[simp] theorem returnFromException_status : (returnFromException s).status = s.prevStatus := rfl
@[simp] theorem returnFromException_prevStatus : (returnFromException s).prevStatus = s.prevStatus := rfl
@[simp] theorem returnFromException_epc : (returnFromException s).epc = s.epc := rfl
@[simp] theorem returnFromException_expVec : (returnFromException s).expVec = s.expVec := rfl
@[simp] theorem returnFromException_excCode : (returnFromException s).excCode = s.excCode := rfl
@[simp] theorem returnFromException_intMask : (returnFromException s).intMask = s.intMask := rfl
@[simp] theorem returnFromException_pending : (returnFromException s).pending = .none := rfl
@[simp] theorem returnFromException_mem : (returnFromException s).mem = s.mem := rfl
@[simp] theorem returnFromException_stored : (returnFromException s).stored = s.stored := rfl
@[simp] theorem returnFromException_timer : (returnFromException s).timer = s.timer := rfl
@[simp] theorem returnFromException_uart : (returnFromException s).uart = s.uart := rfl
@[simp] theorem returnFromException_gpio : (returnFromException s).gpio = s.gpio := rfl
@[simp] theorem returnFromException_env : (returnFromException s).env = s.env := rfl

/-! ### deviceSteps -/

@[simp] theorem deviceSteps_gpr : (deviceSteps s).gpr = s.gpr := rfl
@[simp] theorem deviceSteps_pc : (deviceSteps s).pc = s.pc := rfl
@[simp] theorem deviceSteps_status : (deviceSteps s).status = s.status := rfl
@[simp] theorem deviceSteps_prevStatus : (deviceSteps s).prevStatus = s.prevStatus := rfl
@[simp] theorem deviceSteps_epc : (deviceSteps s).epc = s.epc := rfl
@[simp] theorem deviceSteps_expVec : (deviceSteps s).expVec = s.expVec := rfl
@[simp] theorem deviceSteps_excCode : (deviceSteps s).excCode = s.excCode := rfl
@[simp] theorem deviceSteps_intMask : (deviceSteps s).intMask = s.intMask := rfl
@[simp] theorem deviceSteps_pending : (deviceSteps s).pending = s.pending := rfl
@[simp] theorem deviceSteps_mem : (deviceSteps s).mem = s.mem := rfl
@[simp] theorem deviceSteps_stored : (deviceSteps s).stored = s.stored := rfl
@[simp] theorem deviceSteps_timer : (deviceSteps s).timer = timerAtBoundary s.env s.timer := rfl
@[simp] theorem deviceSteps_uart : (deviceSteps s).uart = uartAtBoundary s.env s.uart := rfl
@[simp] theorem deviceSteps_gpio : (deviceSteps s).gpio = gpioAtBoundary s.env s.gpio := rfl
@[simp] theorem deviceSteps_env : (deviceSteps s).env = envAtBoundary s.env := rfl

/-! ### noteWait -/

@[simp] theorem noteWait_gpr (irq : BitVec 8) : (noteWait irq s).gpr = s.gpr := rfl
@[simp] theorem noteWait_pc (irq : BitVec 8) : (noteWait irq s).pc = s.pc := rfl
@[simp] theorem noteWait_status (irq : BitVec 8) : (noteWait irq s).status = s.status := rfl
@[simp] theorem noteWait_prevStatus (irq : BitVec 8) : (noteWait irq s).prevStatus = s.prevStatus := rfl
@[simp] theorem noteWait_epc (irq : BitVec 8) : (noteWait irq s).epc = s.epc := rfl
@[simp] theorem noteWait_expVec (irq : BitVec 8) : (noteWait irq s).expVec = s.expVec := rfl
@[simp] theorem noteWait_excCode (irq : BitVec 8) : (noteWait irq s).excCode = s.excCode := rfl
@[simp] theorem noteWait_intMask (irq : BitVec 8) : (noteWait irq s).intMask = s.intMask := rfl
@[simp] theorem noteWait_pending (irq : BitVec 8) : (noteWait irq s).pending = s.pending := rfl
@[simp] theorem noteWait_mem (irq : BitVec 8) : (noteWait irq s).mem = s.mem := rfl
@[simp] theorem noteWait_stored (irq : BitVec 8) : (noteWait irq s).stored = s.stored := rfl
@[simp] theorem noteWait_timer (irq : BitVec 8) : (noteWait irq s).timer = s.timer := rfl
@[simp] theorem noteWait_uart (irq : BitVec 8) : (noteWait irq s).uart = s.uart := rfl
@[simp] theorem noteWait_gpio (irq : BitVec 8) : (noteWait irq s).gpio = s.gpio := rfl
@[simp] theorem noteWait_env (irq : BitVec 8) : (noteWait irq s).env = { s.env with irqWait := nextIrqWait irq s } := rfl

/-! ### placeWord -/

@[simp] theorem placeWord_gpr (w : Word) : (placeWord s w).gpr = s.gpr := rfl
@[simp] theorem placeWord_pc (w : Word) : (placeWord s w).pc = s.pc := rfl
@[simp] theorem placeWord_status (w : Word) : (placeWord s w).status = s.status := rfl
@[simp] theorem placeWord_prevStatus (w : Word) : (placeWord s w).prevStatus = s.prevStatus := rfl
@[simp] theorem placeWord_epc (w : Word) : (placeWord s w).epc = s.epc := rfl
@[simp] theorem placeWord_expVec (w : Word) : (placeWord s w).expVec = s.expVec := rfl
@[simp] theorem placeWord_excCode (w : Word) : (placeWord s w).excCode = s.excCode := rfl
@[simp] theorem placeWord_intMask (w : Word) : (placeWord s w).intMask = s.intMask := rfl
@[simp] theorem placeWord_pending (w : Word) : (placeWord s w).pending = s.pending := rfl
@[simp] theorem placeWord_mem (w : Word) : (placeWord s w).mem = writeWord s.mem s.pc.toNat w := rfl
@[simp] theorem placeWord_stored (w : Word) : (placeWord s w).stored = s.stored.filter (fun a => a != s.pc.toNat) := rfl
@[simp] theorem placeWord_timer (w : Word) : (placeWord s w).timer = s.timer := rfl
@[simp] theorem placeWord_uart (w : Word) : (placeWord s w).uart = s.uart := rfl
@[simp] theorem placeWord_gpio (w : Word) : (placeWord s w).gpio = s.gpio := rfl
@[simp] theorem placeWord_env (w : Word) : (placeWord s w).env = s.env := rfl

/-! ### General registers -/

@[simp] theorem readReg_writeReg_same (r : Reg) (v : Word) : readReg (writeReg s r v) r = v := by
  simp [readReg, writeReg]

theorem readReg_writeReg_ne {r q : Reg} (v : Word) (h : q ≠ r) : readReg (writeReg s r v) q = readReg s q := by
  have h' : r.val ≠ q.val := fun e => h (Fin.ext e.symm)
  simp [readReg, writeReg, h']

theorem readReg_writeReg (r q : Reg) (v : Word) :
    readReg (writeReg s r v) q = if q = r then v else readReg s q := by
  by_cases h : q = r
  · subst h; simp
  · rw [if_neg h, readReg_writeReg_ne s v h]

@[simp] theorem readReg_advance (q : Reg) : readReg (advance s) q = readReg s q := rfl
@[simp] theorem readReg_enterSlot (g : Option WordAddr) (q : Reg) : readReg (enterSlot s g) q = readReg s q := rfl
@[simp] theorem readReg_enterException (c : Cause) (q : Reg) : readReg (enterException c s) q = readReg s q := rfl
@[simp] theorem readReg_returnFromException (q : Reg) : readReg (returnFromException s) q = readReg s q := rfl
@[simp] theorem readReg_deviceSteps (q : Reg) : readReg (deviceSteps s) q = readReg s q := rfl
@[simp] theorem readReg_noteWait (irq : BitVec 8) (q : Reg) : readReg (noteWait irq s) q = readReg s q := rfl
@[simp] theorem readReg_placeWord (w : Word) (q : Reg) : readReg (placeWord s w) q = readReg s q := rfl

/-! ### Values that depend on few fields -/

theorem readReg_congr {s t : State} (h : t.gpr = s.gpr) (q : Reg) : readReg t q = readReg s q := by
  simp [readReg, h]

@[simp] theorem successor_writeReg (r : Reg) (v : Word) : successor (writeReg s r v) = successor s := rfl
@[simp] theorem inDelaySlot_writeReg (r : Reg) (v : Word) : inDelaySlot (writeReg s r v) = inDelaySlot s := rfl
@[simp] theorem busRead_writeReg (r : Reg) (v a : Word) : busRead (writeReg s r v) a = busRead s a := rfl
@[simp] theorem busRead_advance (a : Word) : busRead (advance s) a = busRead s a := rfl

theorem successor_none {s : State} (h : s.pending = .none) : successor s = s.pc + 4#32 := by simp [successor, h]
theorem successor_notTaken {s : State} (h : s.pending = .slot none) : successor s = s.pc + 4#32 := by
  simp [successor, h]
theorem successor_taken {s : State} {g : WordAddr} (h : s.pending = .slot (some g)) : successor s = byteAddr g := by
  simp [successor, h]
theorem inDelaySlot_eq_false {s : State} : inDelaySlot s = false ↔ s.pending = .none := by
  cases h : s.pending <;> simp [inDelaySlot, h]

end Sys2Proof.Machine
end

