-- ==== Sys2Proof/Laws/Memory.lean ====
section
/-!
SUPPORT. The laws of memory: a byte read after a write, a word read after a write, the canonical form kept.
-/

namespace Sys2Proof.Machine

/-! ### Bytes -/

theorem readByte_cons (k : Nat) (b : Byte) (m : Memory) (a : Nat) :
    readByte ((k, b) :: m) a = if k = a then b else readByte m a := rfl

theorem readByte_writeByte (m : Memory) (a : Nat) (b : Byte) (x : Nat) :
    readByte (writeByte m a b) x = if x = a then b else readByte m x := by
  induction m with
  | nil => simp [writeByte, readByte, eq_comm]
  | cons c rest ih =>
    obtain ⟨k, d⟩ := c
    simp only [writeByte]
    split
    · simp only [readByte_cons]
      by_cases h : x = a
      · simp [h]
      · simp [h, Ne.symm h]
    · split
      · rename_i h1 h2
        subst h2
        simp only [readByte_cons]
        by_cases h : x = a
        · simp [h]
        · simp [h, Ne.symm h]
      · rename_i h1 h2
        simp only [readByte_cons, ih]
        by_cases h : x = a
        · subst h; simp [Ne.symm h2]
        · simp [h]

/-! ### Words -/

theorem wordOfBytes_byteOfWord (w : Word) :
    wordOfBytes (byteOfWord w 0) (byteOfWord w 1) (byteOfWord w 2) (byteOfWord w 3) = w := by
  apply BitVec.eq_of_getLsbD_eq
  intro i hi
  simp only [wordOfBytes, byteOfWord, BitVec.getLsbD_append, BitVec.getLsbD_extractLsb']
  have h : i < 8 ∨ (8 ≤ i ∧ i < 16) ∨ (16 ≤ i ∧ i < 24) ∨ (24 ≤ i ∧ i < 32) := by omega
  rcases h with h | h | h | h
  · have h1 : i < 8 := h
    simp [h1]
  · have h1 : ¬ i < 8 := by omega
    have h2 : i - 8 < 8 := by omega
    have h3 : 8 + (i - 8) = i := by omega
    simp [h1, h2, h3]
  · have h1 : ¬ i < 8 := by omega
    have h2 : ¬ i - 8 < 8 := by omega
    have h3 : i - 8 - 8 < 8 := by omega
    have h4 : 16 + (i - 8 - 8) = i := by omega
    simp [h1, h2, h3, h4]
  · have h1 : ¬ i < 8 := by omega
    have h2 : ¬ i - 8 < 8 := by omega
    have h3 : ¬ i - 8 - 8 < 8 := by omega
    have h4 : i - 8 - 8 - 8 < 8 := by omega
    have h5 : 24 + (i - 8 - 8 - 8) = i := by omega
    simp [h1, h2, h3, h4, h5]

/-- A byte outside the four of a stored word reads as before. -/
theorem readByte_writeWord_outside (m : Memory) (a : Nat) (v : Word) (x : Nat) (h : x < a ∨ a + 4 ≤ x) :
    readByte (writeWord m a v) x = readByte m x := by
  have h0 : x ≠ a := by omega
  have h1 : x ≠ a + 1 := by omega
  have h2 : x ≠ a + 2 := by omega
  have h3 : x ≠ a + 3 := by omega
  simp [writeWord, readByte_writeByte, h0, h1, h2, h3]

/-- The word just stored is the word read (spec/20_memory.md R81). -/
@[simp] theorem readWord_writeWord_same (m : Memory) (a : Nat) (v : Word) : readWord (writeWord m a v) a = v := by
  simp [readWord, writeWord, readByte_writeByte, wordOfBytes_byteOfWord]

/-- A word apart from the stored one reads as before. -/
theorem readWord_writeWord_apart (m : Memory) (a b : Nat) (v : Word) (h : b + 4 ≤ a ∨ a + 4 ≤ b) :
    readWord (writeWord m a v) b = readWord m b := by
  simp only [readWord]
  rw [readByte_writeWord_outside _ _ _ _ (by omega), readByte_writeWord_outside _ _ _ _ (by omega),
    readByte_writeWord_outside _ _ _ _ (by omega), readByte_writeWord_outside _ _ _ _ (by omega)]

theorem readWord_congr {m n : Memory} (h : ∀ a, readByte n a = readByte m a) (a : Nat) : readWord n a = readWord m a := by
  simp [readWord, h]

/-! ### The canonical form -/

theorem strictlyRising_cons (a : Nat) (l : List Nat) :
    strictlyRising (a :: l) = true ↔ (∀ b ∈ l.head?, a < b) ∧ strictlyRising l = true := by
  cases l with
  | nil => simp [strictlyRising]
  | cons b rest => simp [strictlyRising]

theorem strictlyRising_iff_pairwise (l : List Nat) : strictlyRising l = true ↔ l.Pairwise (· < ·) := by
  induction l with
  | nil => simp [strictlyRising]
  | cons a l ih =>
    rw [strictlyRising_cons, ih, List.pairwise_cons]
    constructor
    · rintro ⟨h1, h2⟩
      refine ⟨fun b hb => ?_, h2⟩
      cases l with
      | nil => cases hb
      | cons c rest =>
        have hc : a < c := h1 c (by simp)
        rcases List.mem_cons.1 hb with rfl | hb'
        · exact hc
        · exact lt_trans hc (List.rel_of_pairwise_cons h2 hb')
    · rintro ⟨h1, h2⟩
      exact ⟨fun b hb => h1 b (List.mem_of_mem_head? hb), h2⟩

theorem mem_writeByte {m : Memory} {a : Nat} {b : Byte} {c : Host.Cell} (h : c ∈ writeByte m a b) :
    c = (a, b) ∨ c ∈ m := by
  induction m with
  | nil => simpa [writeByte] using h
  | cons d rest ih =>
    obtain ⟨k, e⟩ := d
    simp only [writeByte] at h
    split at h
    · rcases List.mem_cons.1 h with h | h
      · exact .inl h
      · exact .inr h
    · split at h
      · rcases List.mem_cons.1 h with h | h
        · exact .inl h
        · exact .inr (List.mem_cons_of_mem _ h)
      · rcases List.mem_cons.1 h with h | h
        · exact .inr (h ▸ List.mem_cons_self ..)
        · rcases ih h with h | h
          · exact .inl h
          · exact .inr (List.mem_cons_of_mem _ h)

theorem writeByte_rising (m : Memory) (a : Nat) (b : Byte) (h : (m.map Prod.fst).Pairwise (· < ·)) :
    ((writeByte m a b).map Prod.fst).Pairwise (· < ·) := by
  induction m with
  | nil => simp [writeByte]
  | cons d rest ih =>
    obtain ⟨k, e⟩ := d
    simp only [List.map_cons, List.pairwise_cons] at h
    simp only [writeByte]
    split
    · rename_i hak
      simp only [List.map_cons, List.pairwise_cons]
      refine ⟨fun x hx => ?_, h⟩
      rcases List.mem_cons.1 hx with rfl | hx
      · exact hak
      · exact lt_trans hak (h.1 x hx)
    · split
      · rename_i _ hk
        subst hk
        exact List.pairwise_cons.2 h
      · rename_i h1 h2
        simp only [List.map_cons, List.pairwise_cons]
        refine ⟨fun x hx => ?_, ih h.2⟩
        obtain ⟨c, hc, rfl⟩ := List.mem_map.1 hx
        rcases mem_writeByte hc with rfl | hc
        · show k < a
          omega
        · exact h.1 _ (List.mem_map_of_mem hc)

theorem wf_iff (m : Memory) :
    m.wf = true ↔ (m.map Prod.fst).Pairwise (· < ·) ∧ ∀ c ∈ m, isBacked c.1 = true := by
  simp only [Memory.wf, Bool.and_eq_true, strictlyRising_iff_pairwise, List.all_eq_true]

/-- A byte write to an address that memory has keeps the canonical form. -/
theorem writeByte_wf {m : Memory} {a : Nat} (b : Byte) (h : m.wf = true) (ha : isBacked a = true) :
    (writeByte m a b).wf = true := by
  rw [wf_iff] at h ⊢
  refine ⟨writeByte_rising m a b h.1, fun c hc => ?_⟩
  rcases mem_writeByte hc with rfl | hc
  · exact ha
  · exact h.2 c hc

/-- A word write to an address whose four bytes memory has keeps the canonical form. -/
theorem writeWord_wf {m : Memory} {a : Nat} (v : Word) (h : m.wf = true) (h0 : isBacked a = true)
    (h1 : isBacked (a + 1) = true) (h2 : isBacked (a + 2) = true) (h3 : isBacked (a + 3) = true) :
    (writeWord m a v).wf = true :=
  writeByte_wf _ (writeByte_wf _ (writeByte_wf _ (writeByte_wf _ h h0) h1) h2) h3

theorem reset_mem_wf : State.reset.mem.wf = true := by decide

/-! ### The record of stored words -/

theorem mem_insertAddr {l : List Nat} {a x : Nat} : x ∈ insertAddr l a ↔ x = a ∨ x ∈ l := by
  induction l with
  | nil => simp [insertAddr]
  | cons k rest ih =>
    simp only [insertAddr]
    split
    · simp
    · split
      · rename_i _ h
        subst h
        simp
      · simp only [List.mem_cons, ih]
        tauto

theorem insertAddr_rising {l : List Nat} (a : Nat) (h : l.Pairwise (· < ·)) : (insertAddr l a).Pairwise (· < ·) := by
  induction l with
  | nil => simp [insertAddr]
  | cons k rest ih =>
    have hr := List.pairwise_cons.1 h
    simp only [insertAddr]
    split
    · rename_i hak
      refine List.pairwise_cons.2 ⟨fun x hx => ?_, h⟩
      rcases List.mem_cons.1 hx with rfl | hx
      · exact hak
      · exact lt_trans hak (hr.1 x hx)
    · split
      · exact h
      · rename_i h1 h2
        refine List.pairwise_cons.2 ⟨fun x hx => ?_, ih hr.2⟩
        rcases mem_insertAddr.1 hx with rfl | hx
        · omega
        · exact hr.1 x hx

/-- Recording a word that an STW can write keeps the record canonical. -/
theorem noteStored_wf {l : List Nat} {a : Nat} (h : storedWf l) (h4 : a % 4 = 0) (ha : inSpm a ∨ inWritableDevice a) :
    storedWf (noteStored l a) := by
  refine ⟨(strictlyRising_iff_pairwise _).2 (insertAddr_rising a ((strictlyRising_iff_pairwise _).1 h.1)), ?_⟩
  intro x hx
  rcases mem_insertAddr.1 hx with rfl | hx
  · exact ⟨h4, ha⟩
  · exact h.2 x hx

end Sys2Proof.Machine
end

