-- ==== Sys2Proof/Laws/Ops.lean ====
section
/-!
SUPPORT. What each shared operation can do, said once: if it answers a next state, then one of these cases holds.
-/

namespace Sys2Proof.Machine

variable {s t : State}

/-! ### Control flow and exceptions -/

theorem raise_eq (c : Cause) (s : State) : raise c s = .next (enterException c s) := rfl

theorem raise_next {c : Cause} : raise c s = .next t ↔ t = enterException c s := by
  simp [raise, eq_comm]

theorem branch_next {g : Option WordAddr} : branch s g = .next t ↔ s.pending = .none ∧ t = enterSlot s g := by
  cases h : s.pending <;> simp [branch, inDelaySlot, h, eq_comm]

theorem branch_refused {g : Option WordAddr} (h : s.pending ≠ .none) : branch s g = .refused .branchInDelaySlot := by
  cases hp : s.pending with
  | none => exact absurd hp h
  | slot o => simp [branch, inDelaySlot, hp]

theorem writeAndAdvance_next {r : Reg} {v : Word} :
    writeAndAdvance s r v = .next t ↔ t = advance (writeReg s r v) := by
  simp [writeAndAdvance, eq_comm]

theorem overflowOrWrite_next {o : Bool} {r : Reg} {v : Word} :
    overflowOrWrite o s r v = .next t ↔
      (o = true ∧ t = enterException .arithmeticOverflow s) ∨ (o = false ∧ t = advance (writeReg s r v)) := by
  cases o <;> simp [overflowOrWrite, raise, writeAndAdvance, eq_comm]

theorem inKernelMode_kernel {body : Result} (h : s.status.em = .kernel) : inKernelMode s body = body := by
  simp [inKernelMode, h]

theorem inKernelMode_user {body : Result} (h : s.status.em = .user) :
    inKernelMode s body = .next (enterException .privilegeViolation s) := by
  simp [inKernelMode, h, raise]

theorem inKernelMode_next {body : Result} :
    inKernelMode s body = .next t ↔
      (s.status.em = .kernel ∧ body = .next t) ∨
      (s.status.em = .user ∧ t = enterException .privilegeViolation s) := by
  cases h : s.status.em <;> simp [inKernelMode, h, raise, eq_comm]

/-! ### The bus -/

theorem loadWord_next {a : Word} {r : Reg} :
    loadWord a r s = .next t ↔
      (isAligned a = true ∧ ∃ v, busRead s a = some v ∧ t = advance (writeReg s r v)) ∨
      (isAligned a = false ∧ t = enterException .addressMissAlign s) := by
  cases ha : isAligned a with
  | false => simp [loadWord, ha, raise, eq_comm]
  | true => cases hb : busRead s a <;> simp [loadWord, ha, hb, writeAndAdvance, eq_comm]

theorem storeWord_next {a v : Word} :
    storeWord a v s = .next t ↔
      (isAligned a = true ∧ ∃ u, busWrite s a v = .ok u ∧ t = advance u) ∨
      (isAligned a = false ∧ t = enterException .addressMissAlign s) := by
  cases ha : isAligned a with
  | false => simp [storeWord, ha, raise, eq_comm]
  | true => cases hb : busWrite s a v <;> simp [storeWord, ha, hb, eq_comm]

/-- Everything a store that is accepted can do: it changes the scratch pad memory, or one device, and the word counts as stored. -/
theorem busWrite_ok {a v : Word} {u : State} (h : busWrite s a v = .ok u) :
    (locate a = .spm ∧ u = { s with mem := writeWord s.mem a.toNat v, stored := noteStored s.stored a.toNat }) ∨
    (∃ r, locate a = .timer r ∧ u = { s with timer := timerWrite s.timer r v, stored := noteStored s.stored a.toNat }) ∨
    (∃ r d, locate a = .uart r ∧ uartWrite s.uart r v = .ok d ∧
      u = { s with uart := d, stored := noteStored s.stored a.toNat }) ∨
    (∃ r d, locate a = .gpio r ∧ gpioWrite s.gpio r v = .ok d ∧
      u = { s with gpio := d, stored := noteStored s.stored a.toNat }) := by
  unfold busWrite at h
  split at h
  · cases h
  · cases h
  · rename_i hl
    exact .inl ⟨hl, by simpa using h.symm⟩
  · rename_i r hl
    exact .inr (.inl ⟨r, hl, by simpa using h.symm⟩)
  · rename_i r hl
    split at h
    · rename_i d hd
      exact .inr (.inr (.inl ⟨r, d, hl, hd, by simpa using h.symm⟩))
    · cases h
  · rename_i r hl
    split at h
    · rename_i d hd
      exact .inr (.inr (.inr ⟨r, d, hl, hd, by simpa using h.symm⟩))
    · cases h
  · cases h

theorem locate_spm {a : Word} (h : locate a = .spm) :
    Config.windowSize ≤ a.toNat ∧ a.toNat < Config.windowSize + Config.spmSize := by
  unfold locate at h
  dsimp only at h
  split at h
  · split at h <;> cases h
  · split at h
    · simp only [Config.windowSize, Config.spmSize] at *
      omega
    · cases h
  · split at h <;> cases h
  · split at h <;> cases h
  · split at h <;> cases h
  · cases h

theorem locate_rom {a : Word} (h : locate a = .rom) : a.toNat < Config.romSize := by
  unfold locate at h
  dsimp only at h
  split at h
  · split at h
    · simp only [Config.windowSize, Config.romSize] at *
      omega
    · cases h
  · split at h <;> cases h
  · split at h <;> cases h
  · split at h <;> cases h
  · split at h <;> cases h
  · cases h

/-- An address of the scratch pad memory is located there. -/
theorem locate_eq_spm {a : Word} (hlo : Config.windowSize ≤ a.toNat)
    (hhi : a.toNat < Config.windowSize + Config.spmSize) : locate a = .spm := by
  simp only [Config.windowSize, Config.spmSize] at hlo hhi
  have hd : a.toNat / 0x20000000 = 1 := by omega
  have hm : a.toNat % 0x20000000 < 32768 := by omega
  simp [locate, Config.windowSize, Config.spmSize, hd, hm]

/-- An address of the Boot ROM is located there. -/
theorem locate_eq_rom {a : Word} (h : a.toNat < Config.romSize) : locate a = .rom := by
  simp only [Config.romSize] at h
  have hd : a.toNat / 0x20000000 = 0 := by omega
  have hm : a.toNat % 0x20000000 < 4096 := by omega
  simp [locate, Config.windowSize, Config.romSize, hd, hm]

theorem isAligned_iff (a : Word) : isAligned a = true ↔ a.toNat % 4 = 0 := by
  simp only [isAligned, beq_iff_eq]
  rw [BitVec.toNat_eq]
  simp [BitVec.extractLsb'_toNat]

theorem isBacked_of_spm_word {n : Nat} (h4 : n % 4 = 0) (hlo : Config.windowSize ≤ n)
    (hhi : n < Config.windowSize + Config.spmSize) {k : Nat} (hk : k < 4) : isBacked (n + k) = true := by
  simp only [isBacked, Config.windowSize, Config.spmSize, Config.romSize] at *
  have h1 : 0x20000000 ≤ n + k := by omega
  have h2 : n + k < 0x20000000 + 32768 := by omega
  simp [h1, h2]

/-! ### Control registers -/

/-- Everything a WRCR that is accepted can do. -/
theorem writeControl_ok {n : CtrlNum} {v : Word} {u : State} (h : writeControl s n v = .ok u) :
    (n.val = 0x00 ∧ u = { s with status := statusOfWord v }) ∨
    (n.val = 0x01 ∧ u = { s with prevStatus := statusOfWord v }) ∨
    (n.val = 0x03 ∧ u = { s with epc := wordAddr v }) ∨
    (n.val = 0x04 ∧ u = { s with expVec := wordAddr v }) ∨
    (n.val = 0x05 ∧ u = { s with excCode := excCodeOfWord v }) ∨
    (n.val = 0x06 ∧ u = { s with intMask := v.extractLsb' 0 8 }) := by
  unfold writeControl at h
  split at h <;> first | cases h; done | (injection h with h; subst h; simp_all)

/-! ### Word addresses -/

@[simp] theorem wordAddr_byteAddr (g : WordAddr) : wordAddr (byteAddr g) = g := by
  apply BitVec.eq_of_getLsbD_eq
  intro i hi
  simp only [wordAddr, byteAddr, BitVec.getLsbD_extractLsb', BitVec.getLsbD_append]
  simp [hi, show ¬ 2 + i < 2 by omega]

theorem byteAddr_toNat (g : WordAddr) : (byteAddr g).toNat = 4 * g.toNat := by
  have h : (byteAddr g).toNat = g.toNat <<< 2 ||| (0#2).toNat := BitVec.toNat_append ..
  rw [h]
  simp [Nat.shiftLeft_eq, Nat.mul_comm]

theorem byteAddr_aligned (g : WordAddr) : (byteAddr g).toNat % 4 = 0 := by
  rw [byteAddr_toNat]; omega

theorem wordAddr_toNat (a : Word) : (wordAddr a).toNat = a.toNat / 4 := by
  have h : a.toNat < 2 ^ 32 := a.isLt
  have h2 : (wordAddr a).toNat = (a.toNat >>> 2) % 2 ^ 30 := BitVec.extractLsb'_toNat ..
  rw [h2, Nat.shiftRight_eq_div_pow]
  omega

/-- An aligned address is the byte address of its word address. -/
theorem byteAddr_wordAddr {a : Word} (h : a.toNat % 4 = 0) : byteAddr (wordAddr a) = a := by
  apply BitVec.eq_of_toNat_eq
  rw [byteAddr_toNat, wordAddr_toNat]
  omega

theorem add_four_aligned {a : Word} (h : a.toNat % 4 = 0) : (a + 4#32).toNat % 4 = 0 := by
  rw [BitVec.toNat_add]
  simp only [BitVec.toNat_ofNat]
  omega

theorem successor_aligned (h : s.pc.toNat % 4 = 0) : (successor s).toNat % 4 = 0 := by
  unfold successor
  split
  · exact byteAddr_aligned _
  · exact add_four_aligned h
  · exact add_four_aligned h

end Sys2Proof.Machine
end

