-- ==== Sys2Proof/Laws/Step.lean ====
section
/-!
SUPPORT. What an instruction and a step can do, said once each.
-/

namespace Sys2Proof.Machine

variable {s t : State}

/-- Everything an instruction that answers a next state can do: write one general register and go on; enter a delay slot;
store; write a control register; return from an exception; take an exception that its rule names. -/
theorem exec_next_cases {i : Instr} (h : exec i s = .next t) :
    (i.isBranch = false ∧ ∃ r v, t = advance (writeReg s r v)) ∨
    (i.isBranch = true ∧ s.pending = .none ∧ ∃ g, t = enterSlot s g) ∨
    ((∃ ra, i = .call ra) ∧ s.pending = .none ∧ ∃ g, t = enterSlot (writeReg s 31 (callLink s.pc)) g) ∨
    (∃ ra rb imm u, i = .stw ra rb imm ∧ isAligned (effectiveAddress (readReg s ra) imm) = true ∧
      busWrite s (effectiveAddress (readReg s ra) imm) (readReg s rb) = .ok u ∧ t = advance u) ∨
    (∃ ra cb u, i = .wrcr ra cb ∧ s.status.em = .kernel ∧ writeControl s cb (readReg s ra) = .ok u ∧ t = advance u) ∨
    (i = .exrt ∧ s.status.em = .kernel ∧ t = returnFromException s) ∨
    (∃ c, raises i = some c ∧ t = enterException c s) := by
  cases i with
  | andr ra rb rc => exact .inl ⟨rfl, _, _, writeAndAdvance_next.1 h⟩
  | andi ra rb imm => exact .inl ⟨rfl, _, _, writeAndAdvance_next.1 h⟩
  | orr ra rb rc => exact .inl ⟨rfl, _, _, writeAndAdvance_next.1 h⟩
  | ori ra rb imm => exact .inl ⟨rfl, _, _, writeAndAdvance_next.1 h⟩
  | xorr ra rb rc => exact .inl ⟨rfl, _, _, writeAndAdvance_next.1 h⟩
  | xori ra rb imm => exact .inl ⟨rfl, _, _, writeAndAdvance_next.1 h⟩
  | addur ra rb rc => exact .inl ⟨rfl, _, _, writeAndAdvance_next.1 h⟩
  | addui ra rb imm => exact .inl ⟨rfl, _, _, writeAndAdvance_next.1 h⟩
  | subur ra rb rc => exact .inl ⟨rfl, _, _, writeAndAdvance_next.1 h⟩
  | shrlr ra rb rc => exact .inl ⟨rfl, _, _, writeAndAdvance_next.1 h⟩
  | shrli ra rb imm => exact .inl ⟨rfl, _, _, writeAndAdvance_next.1 h⟩
  | shllr ra rb rc => exact .inl ⟨rfl, _, _, writeAndAdvance_next.1 h⟩
  | shlli ra rb imm => exact .inl ⟨rfl, _, _, writeAndAdvance_next.1 h⟩
  | addsr ra rb rc =>
    rcases overflowOrWrite_next.1 h with ⟨-, h⟩ | ⟨-, h⟩
    · exact .inr (.inr (.inr (.inr (.inr (.inr ⟨_, rfl, h⟩)))))
    · exact .inl ⟨rfl, _, _, h⟩
  | addsi ra rb imm =>
    rcases overflowOrWrite_next.1 h with ⟨-, h⟩ | ⟨-, h⟩
    · exact .inr (.inr (.inr (.inr (.inr (.inr ⟨_, rfl, h⟩)))))
    · exact .inl ⟨rfl, _, _, h⟩
  | subsr ra rb rc =>
    rcases overflowOrWrite_next.1 h with ⟨-, h⟩ | ⟨-, h⟩
    · exact .inr (.inr (.inr (.inr (.inr (.inr ⟨_, rfl, h⟩)))))
    · exact .inl ⟨rfl, _, _, h⟩
  | be ra rb imm => exact .inr (.inl ⟨rfl, (branch_next.1 h).1, _, (branch_next.1 h).2⟩)
  | bne ra rb imm => exact .inr (.inl ⟨rfl, (branch_next.1 h).1, _, (branch_next.1 h).2⟩)
  | bsgt ra rb imm => exact .inr (.inl ⟨rfl, (branch_next.1 h).1, _, (branch_next.1 h).2⟩)
  | bugt ra rb imm => exact .inr (.inl ⟨rfl, (branch_next.1 h).1, _, (branch_next.1 h).2⟩)
  | jmp ra => exact .inr (.inl ⟨rfl, (branch_next.1 h).1, _, (branch_next.1 h).2⟩)
  | call ra => exact .inr (.inr (.inl ⟨⟨ra, rfl⟩, (branch_next.1 h).1, _, (branch_next.1 h).2⟩))
  | ldw ra rb imm =>
    rcases loadWord_next.1 h with ⟨-, v, -, h⟩ | ⟨-, h⟩
    · exact .inl ⟨rfl, _, _, h⟩
    · exact .inr (.inr (.inr (.inr (.inr (.inr ⟨_, rfl, h⟩)))))
  | stw ra rb imm =>
    rcases storeWord_next.1 h with ⟨ha, u, hu, h⟩ | ⟨-, h⟩
    · exact .inr (.inr (.inr (.inl ⟨ra, rb, imm, u, rfl, ha, hu, h⟩)))
    · exact .inr (.inr (.inr (.inr (.inr (.inr ⟨_, rfl, h⟩)))))
  | trap => exact .inr (.inr (.inr (.inr (.inr (.inr ⟨_, rfl, raise_next.1 h⟩)))))
  | rdcr ca rb =>
    rcases inKernelMode_next.1 h with ⟨-, h⟩ | ⟨-, h⟩
    · split at h
      · exact .inl ⟨rfl, _, _, writeAndAdvance_next.1 h⟩
      · cases h
    · exact .inr (.inr (.inr (.inr (.inr (.inr ⟨_, rfl, h⟩)))))
  | wrcr ra cb =>
    rcases inKernelMode_next.1 h with ⟨hk, h⟩ | ⟨-, h⟩
    · split at h
      · rename_i u hu
        exact .inr (.inr (.inr (.inr (.inl ⟨ra, cb, u, rfl, hk, hu, by simpa using h.symm⟩))))
      · cases h
    · exact .inr (.inr (.inr (.inr (.inr (.inr ⟨_, rfl, h⟩)))))
  | exrt =>
    rcases inKernelMode_next.1 h with ⟨hk, h⟩ | ⟨-, h⟩
    · exact .inr (.inr (.inr (.inr (.inr (.inl ⟨rfl, hk, by simpa using h.symm⟩)))))
    · exact .inr (.inr (.inr (.inr (.inr (.inr ⟨_, rfl, h⟩)))))

theorem raises_branch {i : Instr} (h : i.isBranch = true) : raises i = none := by
  cases i <;> first | rfl | cases h

/-- The two interrupt choices. -/
theorem irqChoice_take {irq : BitVec 8} :
    irqChoice irq s = .take ↔ interruptible irq s = true ∧ s.env.irqWait = 0 := by
  simp [irqChoice]

theorem irqChoice_execute {irq : BitVec 8} (h : irqChoice irq s ≠ .take) : irqChoice irq s = .execute := by
  cases hc : irqChoice irq s with
  | take => exact absurd hc h
  | execute => rfl

/-- What executing a fetched word can do. -/
theorem executeWord_next {w : Word} (h : executeWord w s = .next t) :
    (∃ i, decodeWord w = .instr i ∧ exec i s = .next t) ∨
    (decodeWord w = .undefinedInstruction ∧ t = enterException .undefinedInstruction s) := by
  unfold executeWord at h
  split at h
  · rename_i i hi
    exact .inl ⟨i, hi, h⟩
  · rename_i hu
    exact .inr ⟨hu, raise_next.1 h⟩
  · cases h
  · cases h

/-- What a fetch and execution can do. -/
theorem fetchAndExecute_next (h : fetchAndExecute s = .next t) :
    ∃ w, fetch s = .word w ∧ executeWord w s = .next t := by
  unfold fetchAndExecute at h
  split at h
  · rename_i w hw
    exact ⟨w, hw, h⟩
  · cases h
  · cases h

/-- What a CPU step can do: take an interrupt, execute an instruction, or take UndefinedInstruction. -/
theorem cpuStep_next {irq : BitVec 8} (h : cpuStep irq s = .next t) :
    (interruptible irq s = true ∧ t = enterException .externalInterrupt s) ∨
    (∃ i, exec i (noteWait irq s) = .next t) ∨
    t = enterException .undefinedInstruction (noteWait irq s) := by
  unfold cpuStep at h
  split at h
  · rename_i hc
    exact .inl ⟨(irqChoice_take.1 hc).1, raise_next.1 h⟩
  · obtain ⟨w, -, hw⟩ := fetchAndExecute_next h
    rcases executeWord_next hw with ⟨i, -, hi⟩ | ⟨-, ht⟩
    · exact .inr (.inl ⟨i, hi⟩)
    · exact .inr (.inr ht)

theorem step_eq (s : State) : step s = cpuStep (irqLines (deviceSteps s)) (deviceSteps s) := rfl

/-- What a step can do, seen from the state after the device steps before it. -/
theorem step_next (h : step s = .next t) :
    t = enterException .externalInterrupt (deviceSteps s) ∨
    (∃ i k, exec i { deviceSteps s with env := k } = .next t) ∨
    (∃ k, t = enterException .undefinedInstruction { deviceSteps s with env := k }) := by
  rcases cpuStep_next (step_eq s ▸ h) with ⟨-, h⟩ | ⟨i, h⟩ | h
  · exact .inl h
  · exact .inr (.inl ⟨i, _, h⟩)
  · exact .inr (.inr ⟨_, h⟩)

end Sys2Proof.Machine
end

