-- ==== Sys2Proof/Laws/Effects.lean ====
section
/-!
SUPPORT. The effects of the shared operations in the terms of Safety.lean, said once each, and what the bus answers at each
kind of address.
-/

namespace Sys2Proof.Machine

variable {s t : State}

/-! ### Effects -/

/-- Writing a register and going on is that register's write and nothing else. -/
theorem writesReg_advance {r : Reg} {v : Word} : writesReg s (advance (writeReg s r v)) r v := by
  refine ⟨by simp, ?_, by simp [sameControl], by simp [sameMemory], by simp [sameDevices]⟩
  intro q hq
  simp only [List.mem_singleton] at hq
  simp [readReg_writeReg, hq]

/-- Entering a delay slot changes only the program counter and the pending branch. -/
theorem onlyRegs_enterSlot {g : Option WordAddr} : onlyRegs [] s (enterSlot s g) :=
  ⟨fun _ _ => rfl, ⟨rfl, rfl, rfl, rfl, rfl, rfl⟩, ⟨fun _ => rfl, rfl⟩, ⟨rfl, rfl, rfl, rfl⟩⟩

/-- An exception entry leaves what `entered` says. -/
theorem entered_enterException (s : State) (c : Cause) : entered (causeCode c) s (enterException c s) := by
  refine ⟨rfl, rfl, rfl, fun h => byteAddr_wordAddr h, rfl, ?_, rfl, rfl, rfl, rfl, fun _ _ => rfl,
    ⟨fun _ => rfl, rfl⟩, ⟨rfl, rfl, rfl, rfl⟩⟩
  cases h : s.pending <;> simp [inDelaySlot, h]

/-- Going on keeps the rule of R160 whatever else an instruction changed. -/
theorem movesOn_advance {u : State} (h1 : u.pc = s.pc) (h2 : u.pending = s.pending) : movesOn s (advance u) := by
  refine ⟨rfl, fun a h => ?_, fun h => ?_⟩
  · simp [successor, h2, h, byteAddr]
  · rcases h with h | h <;> simp [successor, h1, h2, h]

/-- No instruction changes the model's own counters. -/
theorem exec_env {i : Instr} (h : exec i s = .next t) : t.env = s.env := by
  rcases exec_next_cases h with ⟨-, r, v, rfl⟩ | ⟨-, -, g, rfl⟩ | ⟨-, -, g, rfl⟩ | ⟨ra, rb, imm, u, -, -, hu, rfl⟩ |
    ⟨ra, cb, u, -, -, hu, rfl⟩ | ⟨-, -, rfl⟩ | ⟨c, -, rfl⟩
  · rfl
  · rfl
  · rfl
  · rcases busWrite_ok hu with ⟨-, rfl⟩ | ⟨r, -, rfl⟩ | ⟨r, d, -, -, rfl⟩ | ⟨r, d, -, -, rfl⟩ <;> rfl
  · rcases writeControl_ok hu with ⟨-, rfl⟩ | ⟨-, rfl⟩ | ⟨-, rfl⟩ | ⟨-, rfl⟩ | ⟨-, rfl⟩ | ⟨-, rfl⟩ <;> rfl
  · rfl
  · rfl

/-- An instruction that is no STW to a word leaves that word as it was. -/
theorem exec_readWord {a : Word} (h4 : a.toNat % 4 = 0) {i : Instr} (hn : ¬ storesTo a i s) (h : exec i s = .next t) :
    readWord t.mem a.toNat = readWord s.mem a.toNat := by
  rcases exec_next_cases h with ⟨-, r, v, rfl⟩ | ⟨-, -, g, rfl⟩ | ⟨-, -, g, rfl⟩ | ⟨ra, rb, imm, u, rfl, hal, hu, rfl⟩ |
    ⟨ra, cb, u, -, -, hu, rfl⟩ | ⟨-, -, rfl⟩ | ⟨c, -, rfl⟩
  · rfl
  · rfl
  · rfl
  · rcases busWrite_ok hu with ⟨-, rfl⟩ | ⟨r, -, rfl⟩ | ⟨r, d, -, -, rfl⟩ | ⟨r, d, -, -, rfl⟩
    · have e4 := (isAligned_iff _).1 hal
      have hne : (effectiveAddress (readReg s ra) imm).toNat ≠ a.toNat := fun e =>
        hn ⟨ra, rb, imm, rfl, BitVec.eq_of_toNat_eq e⟩
      exact readWord_writeWord_apart _ _ _ _ (by omega)
    · rfl
    · rfl
    · rfl
  · rcases writeControl_ok hu with ⟨-, rfl⟩ | ⟨-, rfl⟩ | ⟨-, rfl⟩ | ⟨-, rfl⟩ | ⟨-, rfl⟩ | ⟨-, rfl⟩ <;> rfl
  · rfl
  · rfl

/-! ### What the bus answers -/

theorem busRead_mem {a : Word} (h : inRom a.toNat ∨ inSpm a.toNat) : busRead s a = some (readWord s.mem a.toNat) := by
  rcases h with h | h
  · simp [busRead, locate_eq_rom h]
  · simp [busRead, locate_eq_spm h.1 h.2]

theorem busWrite_spm {a v : Word} (h : inSpm a.toNat) :
    busWrite s a v = .ok { s with mem := writeWord s.mem a.toNat v, stored := noteStored s.stored a.toNat } := by
  have hl : locate a = .spm := locate_eq_spm h.1 h.2
  simp only [busWrite, hl]

/-- A device register stands at its address. -/
theorem locate_device {a : Word} (h : inWritableDevice a.toNat) :
    (∃ r, locate a = .timer r) ∨ (∃ r, locate a = .uart r) ∨ (∃ r, locate a = .gpio r) := by
  simp only [inWritableDevice, List.mem_cons, List.not_mem_nil, or_false] at h
  unfold locate
  rcases h with h | h | h | h | h | h | h | h | h <;> rw [h]
  all_goals first
    | exact .inl ⟨_, rfl⟩
    | exact .inr (.inl ⟨_, rfl⟩)
    | exact .inr (.inr ⟨_, rfl⟩)

/-- A device register that an STW can write answers a read. -/
theorem busRead_device {a : Word} (h : inWritableDevice a.toNat) : ∃ v, busRead s a = some v := by
  rcases locate_device h with ⟨r, h⟩ | ⟨r, h⟩ | ⟨r, h⟩ <;> simp [busRead, h]

/-- A store that is accepted goes to a word that an STW can write, and that word counts as stored. -/
theorem busWrite_stored {a v : Word} {u : State} (h : busWrite s a v = .ok u) :
    (inSpm a.toNat ∨ inWritableDevice a.toNat) ∧ u.stored = noteStored s.stored a.toNat := by
  have hlt := a.isLt
  rcases busWrite_ok h with ⟨hl, rfl⟩ | ⟨r, hl, rfl⟩ | ⟨r, d, hl, hd, rfl⟩ | ⟨r, d, hl, hd, rfl⟩
  · exact ⟨.inl (locate_spm hl), rfl⟩
  all_goals
    refine ⟨.inr ?_, rfl⟩
    unfold locate at hl
    simp only [inWritableDevice, List.mem_cons, List.not_mem_nil, or_false]
    dsimp only [Config.windowSize, Config.romSize, Config.spmSize] at hl
    split at hl
    all_goals first
      | (split at hl <;> first | (cases hl; done) | (cases hl; omega) | (cases hl; cases hd))
      | cases hl

/-- Where no device answers: the rest of the ROM window, or no place at all. -/
theorem locate_noResponder {a : Word} (h : noResponder a.toNat) :
    (a.toNat < 0x20000000 ∧ locate a = .romHole) ∨ (0x20000000 ≤ a.toNat ∧ locate a = .unmapped) := by
  have hlt := a.isLt
  unfold noResponder at h
  unfold locate
  dsimp only [Config.windowSize, Config.romSize, Config.spmSize]
  have hd : a.toNat / 0x20000000 < 8 := by omega
  generalize hq : a.toNat / 0x20000000 = q at hd
  interval_cases q
  · left; exact ⟨by omega, if_neg (by omega)⟩
  · right; exact ⟨by omega, if_neg (by omega)⟩
  all_goals right; refine ⟨by omega, ?_⟩
  all_goals first | rfl | (split <;> first | omega | rfl | (split <;> first | omega | rfl))

theorem busRead_noResponder {a : Word} (h : noResponder a.toNat) : busRead s a = none := by
  rcases locate_noResponder h with h | h <;> simp [busRead, h.2]

end Sys2Proof.Machine
end

