-- ==== Sys2Proof/Laws/Encoding.lean ====
section
/-!
SUPPORT. The fields of an encoded word, format by format, and the bytes of a word.
-/

namespace Sys2Proof

/-! ### Register fields -/

@[simp] theorem regOfBits_bitsOfReg (r : Reg) : regOfBits (bitsOfReg r) = r := by
  apply Fin.ext
  simp only [regOfBits, bitsOfReg, BitVec.toNat_ofNat]
  exact Nat.mod_eq_of_lt r.isLt

@[simp] theorem bitsOfReg_regOfBits (b : BitVec 5) : bitsOfReg (regOfBits b) = b := by
  simp [regOfBits, bitsOfReg]

/-! ### Fields of each format -/

@[simp] theorem encodeR3_op (op : BitVec 6) (a b c : Reg) : (encodeR3 op a b c).extractLsb' 26 6 = op := by
  apply BitVec.eq_of_getLsbD_eq
  intro i hi
  simp only [encodeR3, BitVec.getLsbD_append, BitVec.getLsbD_extractLsb', hi]
  simp [hi, show ¬ 26 + i < 11 by omega, show ¬ 26 + i - 11 < 5 by omega, show ¬ 26 + i - 11 - 5 < 5 by omega, show ¬ 26 + i - 11 - 5 - 5 < 5 by omega, show 26 + i - 11 - 5 - 5 - 5 = i by omega]

@[simp] theorem encodeR3_ra (op : BitVec 6) (a b c : Reg) : (encodeR3 op a b c).extractLsb' 21 5 = bitsOfReg a := by
  apply BitVec.eq_of_getLsbD_eq
  intro i hi
  simp only [encodeR3, BitVec.getLsbD_append, BitVec.getLsbD_extractLsb', hi]
  simp [hi, show ¬ 21 + i < 11 by omega, show ¬ 21 + i - 11 < 5 by omega, show ¬ 21 + i - 11 - 5 < 5 by omega, show 21 + i - 11 - 5 - 5 = i by omega]

@[simp] theorem encodeR3_rb (op : BitVec 6) (a b c : Reg) : (encodeR3 op a b c).extractLsb' 16 5 = bitsOfReg b := by
  apply BitVec.eq_of_getLsbD_eq
  intro i hi
  simp only [encodeR3, BitVec.getLsbD_append, BitVec.getLsbD_extractLsb', hi]
  simp [hi, show ¬ 16 + i < 11 by omega, show ¬ 16 + i - 11 < 5 by omega, show 16 + i - 11 - 5 = i by omega]

@[simp] theorem encodeR3_rc (op : BitVec 6) (a b c : Reg) : (encodeR3 op a b c).extractLsb' 11 5 = bitsOfReg c := by
  apply BitVec.eq_of_getLsbD_eq
  intro i hi
  simp only [encodeR3, BitVec.getLsbD_append, BitVec.getLsbD_extractLsb', hi]
  simp [hi, show ¬ 11 + i < 11 by omega, show 11 + i - 11 = i by omega]

@[simp] theorem encodeR3_low (op : BitVec 6) (a b c : Reg) : (encodeR3 op a b c).extractLsb' 0 11 = 0#11 := by
  apply BitVec.eq_of_getLsbD_eq
  intro i hi
  simp only [encodeR3, BitVec.getLsbD_append, BitVec.getLsbD_extractLsb', hi]
  simp [hi]

@[simp] theorem opField_encodeR3 (op : BitVec 6) (a b c : Reg) : opField (encodeR3 op a b c) = op := encodeR3_op ..
@[simp] theorem raField_encodeR3 (op : BitVec 6) (a b c : Reg) : raField (encodeR3 op a b c) = a := by simp [raField]
@[simp] theorem rbField_encodeR3 (op : BitVec 6) (a b c : Reg) : rbField (encodeR3 op a b c) = b := by simp [rbField]
@[simp] theorem rcField_encodeR3 (op : BitVec 6) (a b c : Reg) : rcField (encodeR3 op a b c) = c := by simp [rcField]

@[simp] theorem encodeR2I_op (op : BitVec 6) (a b : Reg) (imm : Imm) : (encodeR2I op a b imm).extractLsb' 26 6 = op := by
  apply BitVec.eq_of_getLsbD_eq
  intro i hi
  simp only [encodeR2I, BitVec.getLsbD_append, BitVec.getLsbD_extractLsb', hi]
  simp [hi, show ¬ 26 + i < 16 by omega, show ¬ 26 + i - 16 < 5 by omega, show ¬ 26 + i - 16 - 5 < 5 by omega, show 26 + i - 16 - 5 - 5 = i by omega]

@[simp] theorem encodeR2I_ra (op : BitVec 6) (a b : Reg) (imm : Imm) : (encodeR2I op a b imm).extractLsb' 21 5 = bitsOfReg a := by
  apply BitVec.eq_of_getLsbD_eq
  intro i hi
  simp only [encodeR2I, BitVec.getLsbD_append, BitVec.getLsbD_extractLsb', hi]
  simp [hi, show ¬ 21 + i < 16 by omega, show ¬ 21 + i - 16 < 5 by omega, show 21 + i - 16 - 5 = i by omega]

@[simp] theorem encodeR2I_rb (op : BitVec 6) (a b : Reg) (imm : Imm) : (encodeR2I op a b imm).extractLsb' 16 5 = bitsOfReg b := by
  apply BitVec.eq_of_getLsbD_eq
  intro i hi
  simp only [encodeR2I, BitVec.getLsbD_append, BitVec.getLsbD_extractLsb', hi]
  simp [hi, show ¬ 16 + i < 16 by omega, show 16 + i - 16 = i by omega]

@[simp] theorem encodeR2I_imm (op : BitVec 6) (a b : Reg) (imm : Imm) : (encodeR2I op a b imm).extractLsb' 0 16 = imm := by
  apply BitVec.eq_of_getLsbD_eq
  intro i hi
  simp only [encodeR2I, BitVec.getLsbD_append, BitVec.getLsbD_extractLsb', hi]
  simp [hi]

@[simp] theorem opField_encodeR2I (op : BitVec 6) (a b : Reg) (imm : Imm) : opField (encodeR2I op a b imm) = op := encodeR2I_op ..
@[simp] theorem raField_encodeR2I (op : BitVec 6) (a b : Reg) (imm : Imm) : raField (encodeR2I op a b imm) = a := by simp [raField]
@[simp] theorem rbField_encodeR2I (op : BitVec 6) (a b : Reg) (imm : Imm) : rbField (encodeR2I op a b imm) = b := by simp [rbField]
@[simp] theorem immField_encodeR2I (op : BitVec 6) (a b : Reg) (imm : Imm) : immField (encodeR2I op a b imm) = imm := by simp [immField]

@[simp] theorem encodeR2_op (op : BitVec 6) (a b : Reg) : (encodeR2 op a b).extractLsb' 26 6 = op := by
  apply BitVec.eq_of_getLsbD_eq
  intro i hi
  simp only [encodeR2, BitVec.getLsbD_append, BitVec.getLsbD_extractLsb', hi]
  simp [hi, show ¬ 26 + i < 16 by omega, show ¬ 26 + i - 16 < 5 by omega, show ¬ 26 + i - 16 - 5 < 5 by omega, show 26 + i - 16 - 5 - 5 = i by omega]

@[simp] theorem encodeR2_ra (op : BitVec 6) (a b : Reg) : (encodeR2 op a b).extractLsb' 21 5 = bitsOfReg a := by
  apply BitVec.eq_of_getLsbD_eq
  intro i hi
  simp only [encodeR2, BitVec.getLsbD_append, BitVec.getLsbD_extractLsb', hi]
  simp [hi, show ¬ 21 + i < 16 by omega, show ¬ 21 + i - 16 < 5 by omega, show 21 + i - 16 - 5 = i by omega]

@[simp] theorem encodeR2_rb (op : BitVec 6) (a b : Reg) : (encodeR2 op a b).extractLsb' 16 5 = bitsOfReg b := by
  apply BitVec.eq_of_getLsbD_eq
  intro i hi
  simp only [encodeR2, BitVec.getLsbD_append, BitVec.getLsbD_extractLsb', hi]
  simp [hi, show ¬ 16 + i < 16 by omega, show 16 + i - 16 = i by omega]

@[simp] theorem encodeR2_low (op : BitVec 6) (a b : Reg) : (encodeR2 op a b).extractLsb' 0 16 = 0#16 := by
  apply BitVec.eq_of_getLsbD_eq
  intro i hi
  simp only [encodeR2, BitVec.getLsbD_append, BitVec.getLsbD_extractLsb', hi]
  simp [hi]

@[simp] theorem opField_encodeR2 (op : BitVec 6) (a b : Reg) : opField (encodeR2 op a b) = op := encodeR2_op ..
@[simp] theorem raField_encodeR2 (op : BitVec 6) (a b : Reg) : raField (encodeR2 op a b) = a := by simp [raField]
@[simp] theorem rbField_encodeR2 (op : BitVec 6) (a b : Reg) : rbField (encodeR2 op a b) = b := by simp [rbField]

@[simp] theorem encodeR1_op (op : BitVec 6) (a : Reg) : (encodeR1 op a).extractLsb' 26 6 = op := by
  apply BitVec.eq_of_getLsbD_eq
  intro i hi
  simp only [encodeR1, BitVec.getLsbD_append, BitVec.getLsbD_extractLsb', hi]
  simp [hi, show ¬ 26 + i < 21 by omega, show ¬ 26 + i - 21 < 5 by omega, show 26 + i - 21 - 5 = i by omega]

@[simp] theorem encodeR1_ra (op : BitVec 6) (a : Reg) : (encodeR1 op a).extractLsb' 21 5 = bitsOfReg a := by
  apply BitVec.eq_of_getLsbD_eq
  intro i hi
  simp only [encodeR1, BitVec.getLsbD_append, BitVec.getLsbD_extractLsb', hi]
  simp [hi, show ¬ 21 + i < 21 by omega, show 21 + i - 21 = i by omega]

@[simp] theorem encodeR1_low (op : BitVec 6) (a : Reg) : (encodeR1 op a).extractLsb' 0 21 = 0#21 := by
  apply BitVec.eq_of_getLsbD_eq
  intro i hi
  simp only [encodeR1, BitVec.getLsbD_append, BitVec.getLsbD_extractLsb', hi]
  simp [hi]

@[simp] theorem opField_encodeR1 (op : BitVec 6) (a : Reg) : opField (encodeR1 op a) = op := encodeR1_op ..
@[simp] theorem raField_encodeR1 (op : BitVec 6) (a : Reg) : raField (encodeR1 op a) = a := by simp [raField]

@[simp] theorem encodeR0_op (op : BitVec 6) : (encodeR0 op).extractLsb' 26 6 = op := by
  apply BitVec.eq_of_getLsbD_eq
  intro i hi
  simp only [encodeR0, BitVec.getLsbD_append, BitVec.getLsbD_extractLsb', hi]
  simp [hi, show ¬ 26 + i < 26 by omega, show 26 + i - 26 = i by omega]

@[simp] theorem encodeR0_low (op : BitVec 6) : (encodeR0 op).extractLsb' 0 26 = 0#26 := by
  apply BitVec.eq_of_getLsbD_eq
  intro i hi
  simp only [encodeR0, BitVec.getLsbD_append, BitVec.getLsbD_extractLsb', hi]
  simp [hi]

@[simp] theorem opField_encodeR0 (op : BitVec 6) : opField (encodeR0 op) = op := encodeR0_op ..

/-! ### Bytes -/

/-- The decoder on the bytes of a word is the decoder on the word. -/
@[simp] theorem decode_bytesOfWord (w : Word) (rest : List Byte) : decode (bytesOfWord w ++ rest) = decodeWord w := by
  show decodeWord (wordOfBytes (byteOfWord w 0) (byteOfWord w 1) (byteOfWord w 2) (byteOfWord w 3)) = decodeWord w
  rw [Machine.wordOfBytes_byteOfWord]

/-- A 32-bit table row is the word itself. -/
@[simp] theorem tableWord_toNat (w : Word) : tableWord 32 w.toNat = w := by
  apply BitVec.eq_of_toNat_eq
  have h : w.toNat < 2 ^ 32 := w.isLt
  simp only [tableWord, BitVec.toNat_ofNat, Nat.mod_eq_of_lt h]

end Sys2Proof
end

