-- ==== Sys2Proof/Laws/PerInstr.lean ====
section
/-!
SUPPORT. The statements made instruction by instruction: each instruction's word has the OP value of its row and a zero
reserved field (spec/30_encoding.md R108, R117).
-/

namespace Sys2Proof.Laws.TableRow

/-- The word of an instruction carries its row's OP in bits 31:26 and zeros in its row's reserved field. -/
def Statement (i : Instr) : Prop :=
  opField (encodeWord i) = i.opcode ∧ (encodeWord i).extractLsb' 0 i.reservedWidth = 0

theorem andr (ra rb rc : Reg) : Statement (.andr ra rb rc) := by
  simp [Statement, encodeWord, Instr.opcode, Instr.reservedWidth]

theorem andi (ra rb : Reg) (imm : Imm) : Statement (.andi ra rb imm) := by
  simp [Statement, encodeWord, Instr.opcode, Instr.reservedWidth]

theorem orr (ra rb rc : Reg) : Statement (.orr ra rb rc) := by
  simp [Statement, encodeWord, Instr.opcode, Instr.reservedWidth]

theorem ori (ra rb : Reg) (imm : Imm) : Statement (.ori ra rb imm) := by
  simp [Statement, encodeWord, Instr.opcode, Instr.reservedWidth]

theorem xorr (ra rb rc : Reg) : Statement (.xorr ra rb rc) := by
  simp [Statement, encodeWord, Instr.opcode, Instr.reservedWidth]

theorem xori (ra rb : Reg) (imm : Imm) : Statement (.xori ra rb imm) := by
  simp [Statement, encodeWord, Instr.opcode, Instr.reservedWidth]

theorem addsr (ra rb rc : Reg) : Statement (.addsr ra rb rc) := by
  simp [Statement, encodeWord, Instr.opcode, Instr.reservedWidth]

theorem addsi (ra rb : Reg) (imm : Imm) : Statement (.addsi ra rb imm) := by
  simp [Statement, encodeWord, Instr.opcode, Instr.reservedWidth]

theorem addur (ra rb rc : Reg) : Statement (.addur ra rb rc) := by
  simp [Statement, encodeWord, Instr.opcode, Instr.reservedWidth]

theorem addui (ra rb : Reg) (imm : Imm) : Statement (.addui ra rb imm) := by
  simp [Statement, encodeWord, Instr.opcode, Instr.reservedWidth]

theorem subsr (ra rb rc : Reg) : Statement (.subsr ra rb rc) := by
  simp [Statement, encodeWord, Instr.opcode, Instr.reservedWidth]

theorem subur (ra rb rc : Reg) : Statement (.subur ra rb rc) := by
  simp [Statement, encodeWord, Instr.opcode, Instr.reservedWidth]

theorem shrlr (ra rb rc : Reg) : Statement (.shrlr ra rb rc) := by
  simp [Statement, encodeWord, Instr.opcode, Instr.reservedWidth]

theorem shrli (ra rb : Reg) (imm : Imm) : Statement (.shrli ra rb imm) := by
  simp [Statement, encodeWord, Instr.opcode, Instr.reservedWidth]

theorem shllr (ra rb rc : Reg) : Statement (.shllr ra rb rc) := by
  simp [Statement, encodeWord, Instr.opcode, Instr.reservedWidth]

theorem shlli (ra rb : Reg) (imm : Imm) : Statement (.shlli ra rb imm) := by
  simp [Statement, encodeWord, Instr.opcode, Instr.reservedWidth]

theorem be (ra rb : Reg) (imm : Imm) : Statement (.be ra rb imm) := by
  simp [Statement, encodeWord, Instr.opcode, Instr.reservedWidth]

theorem bne (ra rb : Reg) (imm : Imm) : Statement (.bne ra rb imm) := by
  simp [Statement, encodeWord, Instr.opcode, Instr.reservedWidth]

theorem bsgt (ra rb : Reg) (imm : Imm) : Statement (.bsgt ra rb imm) := by
  simp [Statement, encodeWord, Instr.opcode, Instr.reservedWidth]

theorem bugt (ra rb : Reg) (imm : Imm) : Statement (.bugt ra rb imm) := by
  simp [Statement, encodeWord, Instr.opcode, Instr.reservedWidth]

theorem jmp (ra : Reg) : Statement (.jmp ra) := by
  simp [Statement, encodeWord, Instr.opcode, Instr.reservedWidth]

theorem call (ra : Reg) : Statement (.call ra) := by
  simp [Statement, encodeWord, Instr.opcode, Instr.reservedWidth]

theorem ldw (ra rb : Reg) (imm : Imm) : Statement (.ldw ra rb imm) := by
  simp [Statement, encodeWord, Instr.opcode, Instr.reservedWidth]

theorem stw (ra rb : Reg) (imm : Imm) : Statement (.stw ra rb imm) := by
  simp [Statement, encodeWord, Instr.opcode, Instr.reservedWidth]

theorem trap : Statement (.trap) := by
  simp [Statement, encodeWord, Instr.opcode, Instr.reservedWidth]

theorem rdcr (ca : CtrlNum) (rb : Reg) : Statement (.rdcr ca rb) := by
  simp [Statement, encodeWord, Instr.opcode, Instr.reservedWidth]

theorem wrcr (ra : Reg) (cb : CtrlNum) : Statement (.wrcr ra cb) := by
  simp [Statement, encodeWord, Instr.opcode, Instr.reservedWidth]

theorem exrt : Statement (.exrt) := by
  simp [Statement, encodeWord, Instr.opcode, Instr.reservedWidth]

end Sys2Proof.Laws.TableRow
end

