-- ==== Sys2Proof/Tests/Slice0.lean ====
section
/-!
SUPPORT. Tests: well-formedness refuses, decoding of words written out from the spec, one step per instruction with the
results of spec/95_test_vectors.md, and for each obligation with hypotheses a concrete state and operands that meet them.
-/

namespace Sys2Proof.Tests

open Sys2Proof Sys2Proof.Machine

/-! ### Helpers -/

/-- The state of spec/95_test_vectors.md: reset, the program counter at 0x100, some registers set. -/
def at100 (regs : List (Reg × Word)) : State :=
  regs.foldl (fun s p => writeReg s p.1 p.2) { State.reset with pc := 0x100#32 }

/-- The state of the RDCR and user mode rows of spec/95_test_vectors.md section 2.6. -/
def inUserMode (s : State) : State := { s with status := { ie := true, em := .user }, expVec := 0x10#30 }

/-- Executing a word answers a next state of which a test holds. -/
def afterWord (w : Word) (s : State) (test : State → Bool) : Bool :=
  match executeWord w s with
  | .next t => test t
  | .fault _ => false
  | .refused _ => false

/-- Executing a word is refused for a given reason. -/
def refusedWith (w : Word) (s : State) (r : Refusal) : Bool :=
  match executeWord w s with
  | .next _ => false
  | .fault _ => false
  | .refused q => q == r

/-- Executing a word is stuck for a given reason. -/
def stuckWith (w : Word) (s : State) (r : Fault) : Bool :=
  match executeWord w s with
  | .next _ => false
  | .fault q => q == r
  | .refused _ => false

/-- The exception rows of spec/95_test_vectors.md: code, saved pc 0x100, Status 0, pc at Exception Vector. -/
def tookException (code : BitVec 3) (d : Bool) (s t : State) : Bool :=
  t.excCode == { d := d, code := code } && byteAddr t.epc == 0x100#32 && t.prevStatus == s.status &&
  t.status == { ie := false, em := .kernel } && t.pc == byteAddr s.expVec && t.pending == .none && t.gpr == s.gpr

/-- A word placed at the program counter. -/
def placed (s : State) (w : Word) : State := s.withFetchWord 32 w.toNat

/-! ### Well-formedness: each check refuses an ill-formed term -/

/-- RDCR of an unimplemented control register number (R39), at both ends of the range. -/
theorem test_wf_rdcr_unimplemented :
    (Instr.rdcr 0x08 2).wellFormed = false ∧ (Instr.rdcr 0x1c 2).wellFormed = false ∧
    (Instr.rdcr 0x07 2).wellFormed = true ∧ (Instr.rdcr 0x1d 2).wellFormed = true := by decide

/-- WRCR of a read-only register (R41) and of an unimplemented number (R39). -/
theorem test_wf_wrcr_not_writable :
    (Instr.wrcr 1 0x02).wellFormed = false ∧ (Instr.wrcr 1 0x07).wellFormed = false ∧
    (Instr.wrcr 1 0x1f).wellFormed = false ∧ (Instr.wrcr 1 0x08).wellFormed = false ∧
    (Instr.wrcr 1 0x06).wellFormed = true := by decide

/-- A branch directly after a branch (R168, R264). -/
theorem test_wf_branch_in_slot :
    programWellFormed [.jmp 1, .be 0 0 0#16] = false ∧ programWellFormed [.jmp 1, .exrt, .be 0 0 0#16] = true := by decide

/-- An ill-formed instruction in a program. -/
theorem test_wf_program_member : programWellFormed [.trap, .wrcr 1 0x1d] = false := by decide

/-! ### Decoding: words of spec/95_test_vectors.md Part 1, and one per family bit by bit from R101 to R108 -/

theorem test_decode_logic :
    decodeWord (0b000000#6 ++ 0b00001#5 ++ 0b00010#5 ++ 0b00011#5 ++ 0b00000000000#11) = .instr (.andr 1 2 3) ∧
    decodeWord 0x0422FFFF#32 = .instr (.andi 1 2 0xFFFF#16) ∧
    decodeWord 0x08221800#32 = .instr (.orr 1 2 3) ∧
    decodeWord 0x0C22FFFF#32 = .instr (.ori 1 2 0xFFFF#16) ∧
    decodeWord 0x10221800#32 = .instr (.xorr 1 2 3) ∧
    decodeWord 0x1422FFFF#32 = .instr (.xori 1 2 0xFFFF#16) := by decide

theorem test_decode_arithmetic :
    decodeWord 0x18221800#32 = .instr (.addsr 1 2 3) ∧
    decodeWord (0b000111#6 ++ 0b00001#5 ++ 0b00010#5 ++ 0b0000000000000001#16) = .instr (.addsi 1 2 1#16) ∧
    decodeWord 0x20221800#32 = .instr (.addur 1 2 3) ∧
    decodeWord 0x2422FFFF#32 = .instr (.addui 1 2 0xFFFF#16) ∧
    decodeWord 0x28221800#32 = .instr (.subsr 1 2 3) ∧
    decodeWord 0x2C221800#32 = .instr (.subur 1 2 3) := by decide

theorem test_decode_shift :
    decodeWord 0x30221800#32 = .instr (.shrlr 1 2 3) ∧
    decodeWord (0b001101#6 ++ 0b00001#5 ++ 0b00010#5 ++ 0b0000000000001111#16) = .instr (.shrli 1 2 15#16) ∧
    decodeWord 0x38221800#32 = .instr (.shllr 1 2 3) ∧
    decodeWord 0x3C22000F#32 = .instr (.shlli 1 2 15#16) := by decide

theorem test_decode_branch :
    decodeWord 0x40220003#32 = .instr (.be 1 2 3#16) ∧
    decodeWord 0x4422FFFE#32 = .instr (.bne 1 2 0xFFFE#16) ∧
    decodeWord 0x48220001#32 = .instr (.bsgt 1 2 1#16) ∧
    decodeWord 0x4C220001#32 = .instr (.bugt 1 2 1#16) ∧
    decodeWord 0x50200000#32 = .instr (.jmp 1) ∧
    decodeWord (0b010101#6 ++ 0b11111#5 ++ 0b000000000000000000000#21) = .instr (.call 31) := by decide

theorem test_decode_memory_access :
    decodeWord (0b010110#6 ++ 0b00001#5 ++ 0b00010#5 ++ 0b0000000000000100#16) = .instr (.ldw 1 2 4#16) ∧
    decodeWord 0x5C220004#32 = .instr (.stw 1 2 4#16) := by decide

theorem test_decode_trap : decodeWord (0b011000#6 ++ 0b00000000000000000000000000#26) = .instr .trap := by decide

theorem test_decode_privileged :
    decodeWord 0x64220000#32 = .instr (.rdcr 1 2) ∧
    decodeWord (0b011010#6 ++ 0b00001#5 ++ 0b00100#5 ++ 0b0000000000000000#16) = .instr (.wrcr 1 4) ∧
    decodeWord 0x6C000000#32 = .instr .exrt := by decide

/-- Section 2.7 of the vectors: unassigned OP values, reserved fields, and too few bytes. -/
theorem test_decode_rejects :
    decodeWord 0x70000000#32 = .undefinedInstruction ∧ decodeWord 0xFFFFFFFF#32 = .undefinedInstruction ∧
    decodeWord 0x00221801#32 = .reservedField ∧ decodeWord 0x64220001#32 = .reservedField ∧
    decodeWord 0x50210000#32 = .reservedField ∧ decodeWord 0x60000001#32 = .reservedField ∧
    decode [0x00#8, 0x18#8, 0x22#8] = .truncated := by decide

/-- The opcode table's numbering, through the decoder on bytes. -/
theorem test_decode_table_word :
    decodeTableWord 32 0x5822FFFC = some (.ldw 1 2 0xFFFC#16) ∧ decodeTableWord 32 0x70000000 = none ∧
    decode [0xFC#8, 0xFF#8, 0x22#8, 0x58#8] = .instr (.ldw 1 2 0xFFFC#16) := by decide

/-! ### One step each (spec/95_test_vectors.md Part 2) -/

theorem test_andr : afterWord 0x00221800#32 (at100 [(1, 0xF0F0F0F0#32), (2, 0xFF00FF00#32)])
    (fun t => readReg t 3 == 0xF000F000#32 && t.pc == 0x104#32) = true := by decide

/-- r0 is an ordinary register. -/
theorem test_andr_r0 : afterWord 0x00000000#32 (at100 [(0, 0x12345678#32)])
    (fun t => readReg t 0 == 0x12345678#32) = true := by decide

theorem test_andi : afterWord 0x04228000#32 (at100 [(1, 0xFFFFFFFF#32)])
    (fun t => readReg t 2 == 0x00008000#32) = true := by decide

theorem test_orr : afterWord 0x08221800#32 (at100 [(1, 0xF0F0F0F0#32), (2, 0x0F0F0F0F#32)])
    (fun t => readReg t 3 == 0xFFFFFFFF#32) = true := by decide

theorem test_ori : afterWord 0x0C228000#32 (at100 []) (fun t => readReg t 2 == 0x00008000#32) = true := by decide

theorem test_xorr : afterWord 0x10A52800#32 (at100 [(5, 0x13572468#32)])
    (fun t => readReg t 5 == 0x00000000#32) = true := by decide

theorem test_xori : afterWord 0x1422FFFF#32 (at100 [(1, 0xFFFFFFFF#32)])
    (fun t => readReg t 2 == 0xFFFF0000#32) = true := by decide

theorem test_addsr_overflow :
    let s := at100 [(1, 0x7FFFFFFF#32), (2, 0x00000001#32), (3, 0x33333333#32)]
    afterWord 0x18221800#32 s (tookException 3#3 false s) = true := by decide

theorem test_addsr_minus_one : afterWord 0x18221800#32 (at100 [(1, 0xFFFFFFFF#32), (2, 0x00000001#32)])
    (fun t => readReg t 3 == 0x00000000#32 && t.pc == 0x104#32) = true := by decide

theorem test_addsi_smallest : afterWord 0x1C228000#32 (at100 [(1, 0x80008000#32)])
    (fun t => readReg t 2 == 0x80000000#32) = true := by decide

theorem test_addsi_overflow :
    let s := at100 [(1, 0x80007FFF#32), (2, 0x22222222#32)]
    afterWord 0x1C228000#32 s (tookException 3#3 false s) = true := by decide

theorem test_addur : afterWord 0x20221800#32 (at100 [(1, 0x7FFFFFFF#32), (2, 0x00000001#32)])
    (fun t => readReg t 3 == 0x80000000#32) = true := by decide

theorem test_addui : afterWord 0x24228000#32 (at100 [(1, 0x00000005#32)])
    (fun t => readReg t 2 == 0xFFFF8005#32) = true := by decide

theorem test_subsr : afterWord 0x28221800#32 (at100 [(1, 0xFFFFFFFF#32), (2, 0x80000000#32)])
    (fun t => readReg t 3 == 0x7FFFFFFF#32) = true := by decide

theorem test_subsr_overflow :
    let s := at100 [(1, 0x00000000#32), (2, 0x80000000#32), (3, 0x33333333#32)]
    afterWord 0x28221800#32 s (tookException 3#3 false s) = true := by decide

theorem test_subur : afterWord 0x2C221800#32 (at100 [(1, 0x00000000#32), (2, 0x00000001#32)])
    (fun t => readReg t 3 == 0xFFFFFFFF#32) = true := by decide

theorem test_shrlr : afterWord 0x30221800#32 (at100 [(1, 0x80000000#32), (2, 0xFFFFFFE4#32)])
    (fun t => readReg t 3 == 0x08000000#32) = true := by decide

theorem test_shrli : afterWord 0x3422FFFF#32 (at100 [(1, 0xFFFF0000#32)])
    (fun t => readReg t 2 == 0x00000001#32) = true := by decide

theorem test_shllr : afterWord 0x38221800#32 (at100 [(1, 0xFFFFFFFF#32), (2, 0x00000024#32)])
    (fun t => readReg t 3 == 0xFFFFFFF0#32) = true := by decide

theorem test_shlli : afterWord 0x3C220030#32 (at100 [(1, 0x00000001#32)])
    (fun t => readReg t 2 == 0x00010000#32) = true := by decide

/-- `BE r1,r2,-32768` at 0x20000: the target is 0x4. -/
theorem test_be : afterWord 0x40228000#32 { at100 [] with pc := 0x20000#32 }
    (fun t => t.pc == 0x20004#32 && t.pending == .slot (some 1#30)) = true := by decide

theorem test_be_not_taken : afterWord 0x40220003#32 (at100 [(1, 7#32), (2, 8#32)])
    (fun t => t.pc == 0x104#32 && t.pending == .slot none) = true := by decide

/-- The target 0xFC is word address 0x3F. -/
theorem test_bne : afterWord 0x4422FFFE#32 (at100 [(1, 7#32), (2, 8#32)])
    (fun t => t.pc == 0x104#32 && t.pending == .slot (some 0x3F#30)) = true := by decide

theorem test_bsgt : afterWord 0x48220001#32 (at100 [(1, 0xFFFFFFFF#32), (2, 1#32)])
    (fun t => t.pending == .slot (some 0x42#30)) = true := by decide

theorem test_bsgt_not_taken : afterWord 0x48220001#32 (at100 [(1, 1#32), (2, 0xFFFFFFFF#32)])
    (fun t => t.pending == .slot none) = true := by decide

theorem test_bugt : afterWord 0x4C220001#32 (at100 [(1, 1#32), (2, 0xFFFFFFFF#32)])
    (fun t => t.pending == .slot (some 0x42#30)) = true := by decide

theorem test_bugt_not_taken : afterWord 0x4C220001#32 (at100 [(1, 0xFFFFFFFF#32), (2, 1#32)])
    (fun t => t.pending == .slot none) = true := by decide

/-- Bits 1:0 of the register are dropped. -/
theorem test_jmp : afterWord 0x50200000#32 (at100 [(1, 0x20000103#32)])
    (fun t => t.pc == 0x104#32 && t.pending == .slot (some 0x08000040#30)) = true := by decide

/-- `CALL r31`: the target is read before the link is written. -/
theorem test_call : afterWord 0x57E00000#32 (at100 [(31, 0x00000200#32)])
    (fun t => t.pc == 0x104#32 && t.pending == .slot (some 0x80#30)) = true := by decide

/-- The slot's successor is the target. -/
theorem test_slot_successor : afterWord 0x00000000#32 { at100 [] with pending := .slot (some 0xC0#30) }
    (fun t => t.pc == 0x300#32 && t.pending == .none) = true := by decide

theorem test_branch_in_slot :
    refusedWith 0x40220003#32 { at100 [] with pending := .slot none } .branchInDelaySlot = true := by decide

/-- `LDW r1,r2,-4`: the word at 0x2000_000C. -/
theorem test_ldw : afterWord 0x5822FFFC#32
    { at100 [(1, 0x20000010#32)] with mem := writeWord [] 0x2000000C 0x11112222#32 }
    (fun t => readReg t 2 == 0x11112222#32) = true := by decide

theorem test_ldw_misaligned_and_stuck :
    let s := at100 [(1, 0x20000002#32), (2, 0x22222222#32)]
    afterWord 0x58220004#32 s (tookException 4#3 false s) = true ∧
    stuckWith 0x58220000#32 (at100 [(1, 0x20008000#32)]) (.loadNoResponder 0x20008000#32) = true := by decide

theorem test_stw : afterWord 0x5C22FFFC#32 (at100 [(1, 0x20000010#32), (2, 0x89ABCDEF#32)])
    (fun t => readWord t.mem 0x2000000C == 0x89ABCDEF#32 && t.stored == [0x2000000C] && t.mem.wf) = true := by decide

/-- A store into the ROM window is refused; a store to Timer Control: bit 1 is P, bit 0 is S (R225). -/
theorem test_stw_rom_and_timer :
    refusedWith 0x5C220000#32 (at100 [(1, 0x00000040#32)]) (.storeToRom 0x40#32) = true ∧
    afterWord 0x5C220000#32 (at100 [(1, 0x40000000#32), (2, 0xFFFFFFFE#32)])
      (fun t => t.timer.periodic && !t.timer.start && t.stored == [0x40000000]) = true := by decide

theorem test_trap_user :
    let s := inUserMode (at100 [])
    afterWord 0x60000000#32 s (tookException 5#3 false s) = true := by decide

theorem test_trap_in_slot :
    let s := { at100 [] with pending := .slot (some 0xC0#30), expVec := 0x10#30 }
    afterWord 0x60000000#32 s (fun t => tookException 5#3 true s t && t.pc == 0x40#32) = true := by decide

theorem test_rdcr_exception_code : afterWord 0x64A20000#32
    { at100 [] with excCode := { d := true, code := 5#3 } } (fun t => readReg t 2 == 0xD#32) = true := by decide

/-- The mode test comes before the test of the register number. -/
theorem test_rdcr_user :
    let s := inUserMode (at100 [(2, 0x22222222#32)])
    afterWord 0x65020000#32 s (tookException 6#3 false s) = true := by decide

theorem test_wrcr_status : afterWord 0x68200000#32 (at100 [(1, 0xFFFFFFFF#32)])
    (fun t => t.status == { ie := true, em := .user } && t.pc == 0x104#32) = true := by decide

theorem test_wrcr_epc : afterWord 0x68230000#32 (at100 [(1, 0x12345677#32)])
    (fun t => byteAddr t.epc == 0x12345674#32) = true := by decide

theorem test_exrt : afterWord 0x6C000000#32
    { at100 [] with prevStatus := { ie := true, em := .user }, epc := 4#30, pending := .slot (some 0xC0#30) }
    (fun t => t.status == { ie := true, em := .user } && t.pc == 0x10#32 && t.pending == .none && t.epc == 4#30) = true := by
  decide

theorem test_exrt_user :
    let s := inUserMode (at100 [])
    afterWord 0x6C000000#32 s (tookException 6#3 false s) = true := by decide

theorem test_undefined_instruction :
    let s := inUserMode (at100 [])
    afterWord 0xFFFFFFFF#32 s (tookException 2#3 false s) = true := by decide

/-- Section 2.8 of the vectors: the interrupt in a delay slot in user mode, and the two ways to hold one off. -/
theorem test_interrupt :
    let s := { inUserMode (at100 []) with intMask := 0x7F#8, pending := .slot (some 0xC0#30) }
    irqChoice 0x80#8 s = .take ∧
    tookException 1#3 true s (enterException .externalInterrupt s) = true ∧
    irqChoice 0x01#8 { at100 [] with status := { ie := true, em := .kernel } } = .execute ∧
    irqChoice 0xFF#8 { at100 [] with intMask := 0x00#8 } = .execute := by decide

/-! ### Witnesses: for each obligation with hypotheses, a concrete state and operands that meet them -/

/-- A next state there is. -/
def isNext (r : Result) : Bool :=
  match r with
  | .next _ => true
  | .fault _ => false
  | .refused _ => false

/-- The state an outcome goes to; a default where it goes to none. -/
def nextOf (r : Result) : State :=
  match r with
  | .next t => t
  | .fault _ => State.reset
  | .refused _ => State.reset

theorem eq_next_of_isNext {r : Result} (h : isNext r = true) : r = .next (nextOf r) := by
  cases r with
  | next t => rfl
  | fault f => cases h
  | refused f => cases h

/-- Reset with the NOP word in the first word of the Boot ROM. -/
def nopAtReset : State := placed State.reset 0x00000000#32

/-- Reset with `STW r1,r2,0` in the first word of the Boot ROM and `r1` at the first word of the scratch pad memory. -/
def storeAtReset : State := placed (writeReg State.reset 1 0x20000000#32) 0x5C220000#32

theorem witness_EncodeInvertsDecode : ∃ w i, decodeWord w = .instr i :=
  ⟨0x5822FFFC#32, .ldw 1 2 0xFFFC#16, by decide⟩

theorem witness_OpcodeAndFieldsSelectInstruction :
    ((0x00221800#32).extractLsb' 26 6 = (Instr.andr 1 2 3).opcode ∧ hasOperands 0x00221800#32 (.andr 1 2 3)) ∧
    ((0x5FFFFFFF#32).extractLsb' 26 6 = (Instr.stw 31 31 0xFFFF#16).opcode ∧
      hasOperands 0x5FFFFFFF#32 (.stw 31 31 0xFFFF#16)) ∧
    ((0x68240000#32).extractLsb' 26 6 = (Instr.wrcr 1 4).opcode ∧ hasOperands 0x68240000#32 (.wrcr 1 4)) ∧
    ((0x57E00000#32).extractLsb' 26 6 = (Instr.call 31).opcode ∧ hasOperands 0x57E00000#32 (.call 31)) ∧
    ((0x6C000000#32).extractLsb' 26 6 = Instr.exrt.opcode ∧ hasOperands 0x6C000000#32 .exrt) := by
  refine ⟨⟨rfl, ?_⟩, ⟨rfl, ?_⟩, ⟨rfl, ?_⟩, ⟨rfl, ?_⟩, ⟨rfl, ?_⟩⟩ <;> simp only [hasOperands] <;> decide

theorem witness_StepRunsTheDecodedInstruction_rom :
    irqChoice (irqLines (deviceSteps nopAtReset)) (deviceSteps nopAtReset) = .execute ∧
    nopAtReset.pc.toNat < 0x00001000 ∧ nopAtReset.pc.toNat ∉ nopAtReset.stored ∧
    decode [readByte nopAtReset.mem nopAtReset.pc.toNat, readByte nopAtReset.mem (nopAtReset.pc.toNat + 1),
      readByte nopAtReset.mem (nopAtReset.pc.toNat + 2), readByte nopAtReset.mem (nopAtReset.pc.toNat + 3)] =
      .instr (.andr 0 0 0) := by decide

theorem witness_StepRunsTheDecodedInstruction_spm :
    let s := placed { State.reset with pc := 0x20007FFC#32 } 0x6C000000#32
    irqChoice (irqLines (deviceSteps s)) (deviceSteps s) = .execute ∧
    (0x20000000 ≤ s.pc.toNat ∧ s.pc.toNat < 0x20008000) ∧ s.pc.toNat ∉ s.stored ∧
    decode [readByte s.mem s.pc.toNat, readByte s.mem (s.pc.toNat + 1), readByte s.mem (s.pc.toNat + 2),
      readByte s.mem (s.pc.toNat + 3)] = .instr .exrt := by
  refine ⟨by decide, by decide, by decide, by decide⟩

theorem witness_UnassignedOpcodeTakesException :
    0x1C ≤ ((0x70000000#32).extractLsb' 26 6).toNat ∧ 0x1C ≤ ((0xFFFFFFFF#32).extractLsb' 26 6).toNat ∧
    (let s := placed State.reset 0x70000000#32;
      irqChoice (irqLines (deviceSteps s)) (deviceSteps s) = .execute ∧ s.pc.toNat < 0x00001000 ∧
      s.pc.toNat ∉ s.stored ∧ 0x1C ≤ ((readWord s.mem s.pc.toNat).extractLsb' 26 6).toNat) ∧
    (let s := placed { State.reset with pc := 0x20000000#32 } 0xFFFFFFFF#32;
      irqChoice (irqLines (deviceSteps s)) (deviceSteps s) = .execute ∧
      (0x20000000 ≤ s.pc.toNat ∧ s.pc.toNat < 0x20008000) ∧
      s.pc.toNat ∉ s.stored ∧ 0x1C ≤ ((readWord s.mem s.pc.toNat).extractLsb' 26 6).toNat) := by
  refine ⟨by decide, by decide, ⟨by decide, by decide, by decide, by decide⟩, by decide, by decide, by decide, by decide⟩

/-- The ends of the ranges without a responder, as values of a program counter or of an effective address. -/
theorem witness_noResponder :
    noResponder (0x00001000#32).toNat ∧ noResponder (0x1FFFFFFC#32).toNat ∧ noResponder (0x20008000#32).toNat ∧
    noResponder (0x3FFFFFFC#32).toNat ∧ noResponder (0x40000010#32).toNat ∧ noResponder (0x60000008#32).toNat ∧
    noResponder (0x80000010#32).toNat ∧ noResponder (0xFFFFFFFC#32).toNat := by
  refine ⟨?_, ?_, ?_, ?_, ?_, ?_, ?_, ?_⟩ <;> (simp only [noResponder]; decide)

theorem witness_FetchStops :
    (let s := { State.reset with pc := 0xFFFFFFFC#32 };
      irqChoice (irqLines (deviceSteps s)) (deviceSteps s) = .execute ∧ 0x80000010 ≤ s.pc.toNat) ∧
    (let s := { State.reset with pc := 0x20000000#32, stored := [0x20000000] };
      irqChoice (irqLines (deviceSteps s)) (deviceSteps s) = .execute ∧
      (0x20000000 ≤ s.pc.toNat ∧ s.pc.toNat < 0x20008000) ∧ s.pc.toNat ∈ s.stored) ∧
    (let s := { State.reset with pc := 0x80000004#32, stored := [0x80000004] };
      irqChoice (irqLines (deviceSteps s)) (deviceSteps s) = .execute ∧ inWritableDevice s.pc.toNat ∧
      s.pc.toNat ∈ s.stored) ∧
    (let s := placed State.reset 0x00221801#32;
      irqChoice (irqLines (deviceSteps s)) (deviceSteps s) = .execute ∧
      s.pc.toNat < 0x00001000 ∧ s.pc.toNat ∉ s.stored ∧ decodeWord (readWord s.mem s.pc.toNat) = .reservedField) := by
  refine ⟨⟨by decide, by decide⟩, ⟨by decide, by decide, by decide⟩, ⟨by decide, ?_, by decide⟩,
    by decide, by decide, by decide, by decide⟩
  simp only [inWritableDevice]
  decide

theorem witness_DueInterruptIsTaken :
    let s := { State.reset with status := { ie := true, em := .user }, intMask := 0xFE#8 }
    s.status.ie = true ∧ 0x01#8 &&& ~~~s.intMask ≠ 0#8 ∧ s.env.irqWait = 0 := by
  refine ⟨by decide, by decide, by decide⟩

theorem witness_HeldOffInterruptIsNotTaken :
    State.reset.status.ie = false ∧ 0xFF#8 &&& ~~~State.reset.intMask = 0#8 := by decide

/-- The state of the liveness witness: an interrupt that must wait one boundary, and a NOP to execute meanwhile. -/
def waitingOnce : State :=
  { nopAtReset with
    status := { ie := true, em := .kernel }
    intMask := 0xFE#8
    env := { clock := 0, irqWait := 1, timerWait := 0 } }

theorem witness_DeliverableInterruptIsEventuallyTaken :
    let f : Nat → State := fun k => if k = 0 then waitingOnce else deviceSteps (nextOf (cpuStep 1#8 waitingOnce))
    (f 0).env.irqWait ≤ 1 ∧
    (∀ k ≤ 1, (f k).status.ie = true ∧ 1#8 &&& ~~~(f k).intMask ≠ 0#8) ∧
    (∀ k < 1, ∃ u, cpuStep 1#8 (f k) = .next u ∧ f (k + 1) = deviceSteps u) := by
  refine ⟨by decide, fun k hk => ?_, fun k hk => ?_⟩
  · have h : k = 0 ∨ k = 1 := by omega
    rcases h with rfl | rfl
    · decide
    · exact ⟨by decide, by decide⟩
  · obtain rfl : k = 0 := by omega
    exact ⟨_, eq_next_of_isNext (by decide), rfl⟩

/-- The four conditional branches taken and not taken, and the hypotheses on the state. -/
theorem witness_ConditionalBranches :
    let s := at100 [(1, 0xFFFFFFFF#32), (2, 1#32), (3, 1#32)]
    s.pending = .none ∧ s.pc.toNat % 4 = 0 ∧
    readReg s 2 = readReg s 3 ∧ readReg s 1 ≠ readReg s 2 ∧
    (readReg s 1).toInt < (readReg s 2).toInt ∧ ¬ (readReg s 2).toInt < (readReg s 1).toInt ∧
    (readReg s 2).toNat < (readReg s 1).toNat ∧ ¬ (readReg s 1).toNat < (readReg s 2).toNat := by
  refine ⟨by decide, by decide, by decide, by decide, by decide, by decide, by decide, by decide⟩

theorem witness_RegisterJumps : State.reset.pending = .none := by decide

theorem witness_BranchInDelaySlotIsRefused :
    (Instr.jmp 1).isBranch = true ∧ { at100 [] with pending := .slot none }.pending ≠ .none ∧
    { at100 [] with pending := .slot (some 0#30) }.pending ≠ .none := by decide

/-- A branch taken, and not taken, with a NOP in its slot. -/
theorem witness_SlotExecutesThenTarget :
    let go := fun (s : State) (i : Instr) (target : Option WordAddr) =>
      ∃ u v, i.isBranch = true ∧ (Instr.andr 0 0 0).isBranch = false ∧ Instr.andr 0 0 0 ≠ .exrt ∧
        exec i s = .next u ∧ u.pending = .slot target ∧ exec (.andr 0 0 0) u = .next v ∧
        ∀ c, v ≠ enterException c u
    go (at100 []) (.be 1 2 3#16) (some 0x44#30) ∧ go (at100 []) (.bne 1 2 3#16) none := by
  refine ⟨⟨_, _, rfl, rfl, by decide, eq_next_of_isNext (by decide), by decide, rfl, ?_⟩,
    ⟨_, _, rfl, rfl, by decide, eq_next_of_isNext (by decide), by decide, rfl, ?_⟩⟩ <;>
  · intro c h
    have h := congrArg State.pc h
    revert h
    cases c <;> decide

theorem witness_OtherInstructionsMoveOn :
    (Instr.andr 0 0 0).isBranch = false ∧ Instr.andr 0 0 0 ≠ .exrt ∧ isNext (exec (.andr 0 0 0) (at100 [])) = true ∧
    isNext (exec .trap (at100 [])) = true := by decide

/-- Effective addresses: `r1` plus the displacement 0. -/
theorem witness_MisalignedAccessTraps :
    (readReg (at100 [(1, 0x20000001#32)]) 1 + (0#16).signExtend 32).extractLsb' 0 2 ≠ 0#2 ∧
    (readReg (at100 [(1, 0x20000003#32)]) 1 + (0#16).signExtend 32).extractLsb' 0 2 ≠ 0#2 ∧
    (let s := at100 [(1, 0x20000000#32)];
      (readReg s 1 + (0#16).signExtend 32).extractLsb' 0 2 = 0#2 ∧ isNext (exec (.ldw 1 2 0#16) s) = true ∧
      isNext (exec (.stw 1 2 0#16) s) = true) := by
  refine ⟨by decide, by decide, by decide, by decide, by decide⟩

theorem witness_LoadFromMemory :
    (let a := readReg (at100 []) 1 + (0#16).signExtend 32; a.toNat % 4 = 0 ∧ a.toNat < 0x00001000) ∧
    (let a := readReg (at100 [(1, 0x0FFC#32)]) 1 + (0#16).signExtend 32; a.toNat % 4 = 0 ∧ a.toNat < 0x00001000) ∧
    (let a := readReg (at100 [(1, 0x20000000#32)]) 1 + (0#16).signExtend 32;
      a.toNat % 4 = 0 ∧ 0x20000000 ≤ a.toNat ∧ a.toNat < 0x20008000) ∧
    (let a := readReg (at100 [(1, 0x20008000#32)]) 1 + (0xFFFC#16).signExtend 32;
      a.toNat % 4 = 0 ∧ 0x20000000 ≤ a.toNat ∧ a.toNat < 0x20008000) := by
  refine ⟨by decide, by decide, by decide, by decide⟩

/-- Each of the ten device registers is the effective address of some LDW or STW. -/
theorem witness_LoadFromDevice_StoreToDevice :
    ([0x40000000#32, 0x40000004#32, 0x40000008#32, 0x4000000C#32, 0x60000000#32, 0x60000004#32, 0x80000000#32,
      0x80000004#32, 0x80000008#32, 0x8000000C#32].all fun a =>
      readReg (at100 [(1, a)]) 1 + (0#16).signExtend 32 == a && (at100 [(1, a)]).uart.tx == none) = true := by decide

theorem witness_LoadWithNoResponderIsStuck :
    ([0x00001000#32, 0x20008000#32, 0x40000010#32, 0x60000008#32, 0x80000010#32, 0xFFFFFFFC#32].all fun a =>
      readReg (at100 [(1, a)]) 1 + (0#16).signExtend 32 == a && a.toNat % 4 == 0) = true := by decide

theorem witness_StoreToScratchPad :
    ([(0x20000000#32, 0#16), (0x20008000#32, 0xFFFC#16)].all fun p =>
      let a := effectiveAddress (readReg (at100 [(1, p.1)]) 1) p.2
      a.toNat % 4 == 0 && decide (0x20000000 ≤ a.toNat) && decide (a.toNat < 0x20008000)) = true := by decide

theorem witness_StoreRefusals :
    ([0x00000000#32, 0x1FFFFFFC#32, 0x20008000#32, 0x80000000#32, 0x60000004#32].all fun a =>
      readReg (at100 [(1, a)]) 1 + (0#16).signExtend 32 == a && a.toNat % 4 == 0) = true ∧
    { at100 [] with uart := { State.reset.uart with tx := some 0x41#8 } }.uart.tx.isSome = true := by decide

/-- A NOP and a store to the word below between the store and the load. -/
theorem witness_LoadReturnsLatestStore :
    let s := at100 [(1, 0x20000000#32), (2, 0x12345678#32)]
    let a := effectiveAddress (readReg s 1) 4#16
    a.toNat % 4 = 0 ∧ (0x20000000 ≤ a.toNat ∧ a.toNat < 0x20008000) ∧
    ∃ t u, exec (.stw 1 2 4#16) s = .next t ∧ runsWithoutStoreTo a [.andr 0 0 0, .stw 1 3 0#16] t u ∧
      effectiveAddress (readReg u 1) 4#16 = a := by
  refine ⟨by decide, by decide, _, _, eq_next_of_isNext (by decide),
    ⟨_, _, ⟨fun _ => rfl, rfl⟩, ?_, eq_next_of_isNext (by decide),
      _, _, ⟨fun _ => rfl, rfl⟩, ?_, eq_next_of_isNext (by decide), ⟨fun _ => rfl, rfl⟩⟩, by decide⟩
  · rintro ⟨_, _, _, h, _⟩
    cases h
  · rintro ⟨_, _, _, h, h2⟩
    cases h
    revert h2
    decide

/-- The hypothesis on the mode; the register number and value are any member of the list in the statement. -/
theorem witness_kernel_mode : State.reset.status.em = .kernel ∧ (at100 [(1, 0xFFFFFFFF#32)]).status.em = .kernel := by
  decide

theorem witness_RdcrReadsControlRegisters :
    State.reset.status.em = .kernel ∧
    (∀ n ∈ [(0x00 : CtrlNum), 0x01, 0x02, 0x03, 0x04, 0x05, 0x06, 0x07, 0x1d, 0x1e, 0x1f],
      isNext (exec (.rdcr n 2) State.reset) = true) := by decide

theorem witness_RdcrAfterWrcrReadsNewValue :
    ∀ n ∈ [(0x00 : CtrlNum), 0x01, 0x03, 0x04, 0x05, 0x06],
      let s := at100 [(1, 0xFFFFFFFE#32)]
      s.status.em = .kernel ∧ isNext (exec (.wrcr 1 n) s) = true ∧ (nextOf (exec (.wrcr 1 n) s)).status.em = .kernel := by
  decide

theorem witness_ControlRegisterRefusals :
    State.reset.status.em = .kernel ∧ (0x08 ≤ (0x08 : CtrlNum).val ∧ (0x08 : CtrlNum).val ≤ 0x1c) ∧
    (0x08 ≤ (0x1c : CtrlNum).val ∧ (0x1c : CtrlNum).val ≤ 0x1c) ∧
    (∀ n ∈ [(0x02 : CtrlNum), 0x07, 0x1d, 0x1e, 0x1f], n.val ∈ [0x02, 0x07, 0x1d, 0x1e, 0x1f]) := by decide

/-- In user mode a privileged form; any other form that goes on, is stuck, is refused. -/
theorem witness_ModeMattersToPrivilegedInstructionsOnly :
    (Instr.rdcr 0 2).isPrivileged = true ∧ (Instr.wrcr 1 0).isPrivileged = true ∧ Instr.exrt.isPrivileged = true ∧
    (inUserMode State.reset).status.em = .user ∧
    (Instr.andr 1 2 3).isPrivileged = false ∧ isNext (exec (.andr 1 2 3) State.reset) = true ∧
    stuckWith 0x58220000#32 (at100 [(1, 0xA0000000#32)]) (.loadNoResponder 0xA0000000#32) = true ∧
    refusedWith 0x5C220000#32 (at100 []) (.storeToRom 0#32) = true := by decide

theorem witness_ExrtReturns : State.reset.status.em = .kernel := by decide

theorem witness_ExrtUndoesExceptionEntry : (at100 []).pc.toNat % 4 = 0 := by decide

theorem nopAtReset_steps : step nopAtReset = .next (nextOf (step nopAtReset)) := eq_next_of_isNext (by decide)

theorem storeAtReset_steps : step storeAtReset = .next (nextOf (step storeAtReset)) := eq_next_of_isNext (by decide)

/-- A state with listed memory, and one whose step stores. -/
theorem witness_StepKeepsTheInvariant :
    (nopAtReset.pc.toNat % 4 = 0 ∧ nopAtReset.mem.wf = true ∧ strictlyRising nopAtReset.stored = true ∧
      nopAtReset.stored = []) ∧
    (storeAtReset.pc.toNat % 4 = 0 ∧ storeAtReset.mem.wf = true ∧ storeAtReset.stored = []) ∧
    (∃ t, step nopAtReset = .next t) ∧ (∃ t, step storeAtReset = .next t) :=
  ⟨by decide, by decide, ⟨_, nopAtReset_steps⟩, ⟨_, storeAtReset_steps⟩⟩

/-- A step that stores, and addresses outside the scratch pad memory. -/
theorem witness_StepNeverChangesRom :
    (∃ t, step storeAtReset = .next t) ∧ ¬ inSpm 0 ∧ ¬ inSpm 0x1FFFFFFF ∧ ¬ inSpm 0x20008000 := by
  refine ⟨⟨_, storeAtReset_steps⟩, ?_⟩
  simp only [inSpm]; decide

/-- In user mode a NOP, and a TRAP. -/
theorem witness_UserModeLeavesOnlyByException :
    let s := { nopAtReset with status := { ie := false, em := .user } }
    let q := { placed State.reset 0x60000000#32 with status := { ie := false, em := .user } }
    s.status.em = .user ∧ (∃ t, step s = .next t) ∧ q.status.em = .user ∧ (∃ t, step q = .next t) :=
  ⟨rfl, ⟨_, eq_next_of_isNext (by decide)⟩, rfl, ⟨_, eq_next_of_isNext (by decide)⟩⟩

theorem witness_KernelModeLeavesOnlyByWrcrOrExrt :
    let s := at100 [(1, 1#32)]
    let q := { at100 [] with prevStatus := { ie := false, em := .user } }
    (s.status.em = .kernel ∧ isNext (exec (.wrcr 1 0x00) s) = true ∧ (nextOf (exec (.wrcr 1 0x00) s)).status.em = .user) ∧
    (q.status.em = .kernel ∧ isNext (exec .exrt q) = true ∧ (nextOf (exec .exrt q)).status.em = .user) := by
  refine ⟨by decide, by decide⟩

theorem witness_ControlRegisterWriters :
    isNext (exec .trap State.reset) = true ∧ isNext (exec .exrt State.reset) = true ∧
    (∀ ra cb, Instr.trap ≠ .wrcr ra cb) ∧ (∀ ra cb, Instr.exrt ≠ .wrcr ra cb) :=
  ⟨by decide, by decide, (by intro _ _ h; cases h), (by intro _ _ h; cases h)⟩

theorem witness_OnlyListedInstructionsRaise :
    Instr.trap.isPrivileged = false ∧ isNext (exec .trap State.reset) = true ∧
    (Instr.jmp 1).isPrivileged = false ∧ isNext (exec (.jmp 1) State.reset) = true := by decide

theorem witness_OnlyStoresChangeMemoryOrDevices :
    isNext (exec (.ldw 1 2 0#16) (at100 [(1, 0x60000000#32)])) = true ∧ (∀ ra rb imm, Instr.ldw 1 2 0#16 ≠ .stw ra rb imm) :=
  ⟨by decide, (by intro _ _ _ h; cases h)⟩

/-- No clocks to go; all 2^32 - 1 to go; a stopped timer. -/
theorem witness_TimerExpiresAtItsCount :
    let t : Timer := { periodic := true, start := true, irq := false, expr := 5#32, counter := 5#32 }
    let u : Timer := { periodic := false, start := true, irq := false, expr := 0xFFFFFFFF#32, counter := 0#32 }
    (t.start = true ∧ t.expr.toNat = t.counter.toNat + 0) ∧
    (u.start = true ∧ u.expr.toNat = u.counter.toNat + 4294967295) ∧ State.reset.timer.start = false := by
  refine ⟨by decide, by decide, by decide⟩

/-- The devices run on from a started periodic timer whose request is not cleared. -/
theorem witness_StartedTimerEventuallyExpires :
    let f : Nat → State := fun k => deviceSteps^[k]
      { State.reset with timer := { periodic := true, start := true, irq := true, expr := 2#32, counter := 0#32 } }
    (f 0).timer.start = true ∧
    ∀ k, (f (k + 1)).timer = (deviceSteps (f k)).timer ∧ (f (k + 1)).env.clock = (deviceSteps (f k)).env.clock ∧
      (f (k + 1)).env.timerWait = (deviceSteps (f k)).env.timerWait := by
  refine ⟨by decide, fun k => ?_⟩
  dsimp only
  rw [Function.iterate_succ_apply']
  exact ⟨rfl, rfl, rfl⟩

/-- A timer whose next clock expires it. -/
theorem witness_timerExpires :
    timerExpires { State.reset with
      timer := { periodic := true, start := true, irq := false, expr := 5#32, counter := 5#32 } } :=
  ⟨rfl, 0, Nat.zero_le _, rfl, rfl, rfl,
    timerSteps_irq _ { periodic := true, start := true, irq := true, expr := 5#32, counter := 0#32 } rfl⟩

theorem witness_DevicesNeverWithdrawRequests :
    { State.reset with timer := { State.reset.timer with irq := true } }.timer.irq = true ∧
    State.reset.timer.start = false ∧
    { State.reset with uart := { State.reset.uart with rxI := true, txI := true } }.uart.rxI = true ∧
    { State.reset with uart := { State.reset.uart with rxI := true, txI := true } }.uart.txI = true ∧
    State.reset.uart.tx = none := by decide

theorem witness_InoutPortReadsPinLevels : 0 < 32 ∧ 15 < 32 ∧ 16 < 32 ∧ 31 < 32 := by decide

end Sys2Proof.Tests
end

section
/-!
SUPPORT. What an accepted store and an accepted WRCR leave as it was, and which control register accesses are refused
(spec/10_state.md R39, R41).
-/

namespace Sys2Proof.Machine

variable {s u : State}

/-- An accepted store touches memory or a device, so nothing of the CPU. -/
theorem busWrite_keeps_cpu {a v : Word} (h : busWrite s a v = .ok u) :
    u.pc = s.pc ∧ u.pending = s.pending ∧ sameRegsBut [] s u ∧ sameControl s u := by
  rcases busWrite_ok h with ⟨-, rfl⟩ | ⟨_, -, rfl⟩ | ⟨_, _, -, -, rfl⟩ | ⟨_, _, -, -, rfl⟩ <;>
    exact ⟨rfl, rfl, fun _ _ => rfl, rfl, rfl, rfl, rfl, rfl, rfl⟩

/-- An accepted WRCR writes one control register, so it leaves the flow of control to `advance`. -/
theorem writeControl_keeps_flow {n : CtrlNum} {v : Word} (h : writeControl s n v = .ok u) :
    u.pc = s.pc ∧ u.pending = s.pending := by
  rcases writeControl_ok h with ⟨-, rfl⟩ | ⟨-, rfl⟩ | ⟨-, rfl⟩ | ⟨-, rfl⟩ | ⟨-, rfl⟩ | ⟨-, rfl⟩ <;> exact ⟨rfl, rfl⟩

theorem readControl_unimplemented {n : CtrlNum} (hlo : 0x08 ≤ n.val) (hhi : n.val ≤ 0x1c) :
    readControl s n = .error (.unimplementedControlRegister n) := by
  obtain ⟨n, hn⟩ := n
  dsimp only at hlo hhi
  interval_cases n <;> rfl

theorem writeControl_unimplemented {n : CtrlNum} {v : Word} (hlo : 0x08 ≤ n.val) (hhi : n.val ≤ 0x1c) :
    writeControl s n v = .error (.unimplementedControlRegister n) := by
  obtain ⟨n, hn⟩ := n
  dsimp only at hlo hhi
  interval_cases n <;> rfl

theorem writeControl_readOnly {n : CtrlNum} {v : Word} (h : n.val ∈ [0x02, 0x07, 0x1d, 0x1e, 0x1f]) :
    writeControl s n v = .error (.readOnlyControlRegister n) := by
  obtain ⟨n, hn⟩ := n
  simp only [List.mem_cons, List.not_mem_nil, or_false] at h
  rcases h with rfl | rfl | rfl | rfl | rfl <;> rfl

/-- In kernel mode RDCR is refused for the reason the read of the control register gives. -/
theorem exec_rdcr_refused {n : CtrlNum} {r : Reg} {e : Refusal} (hk : s.status.em = .kernel)
    (h : readControl s n = .error e) : exec (.rdcr n r) s = .refused e := by
  simp only [exec, execRdcr, inKernelMode_kernel hk, h]

/-- In kernel mode WRCR is refused for the reason the write of the control register gives. -/
theorem exec_wrcr_refused {n : CtrlNum} {r : Reg} {e : Refusal} (hk : s.status.em = .kernel)
    (h : writeControl s n (readReg s r) = .error e) : exec (.wrcr r n) s = .refused e := by
  simp only [exec, execWrcr, inKernelMode_kernel hk, h]

end Sys2Proof.Machine
end

section
/-! SUPPORT. The statements about the state (spec/10_state.md), settled. -/

namespace Sys2Proof.Machine

/-- Settles O23, by the cases of `exec_next_cases`: an instruction that completes ends in `advance` of a state whose program
counter and pending branch are still those of `s`, or is a branch, EXRT, or an exception entry. -/
theorem otherInstructionsMoveOn : Obligations.OtherInstructionsMoveOn := by
  intro i s t hbranch hexrt h
  rcases exec_next_cases h with ⟨-, r, v, rfl⟩ | ⟨hb, -⟩ | ⟨⟨ra, rfl⟩, -⟩ | ⟨ra, rb, imm, u, -, -, hu, rfl⟩ |
    ⟨ra, cb, u, -, -, hu, rfl⟩ | ⟨hi, -⟩ | hraise
  · exact .inl (movesOn_advance rfl rfl)
  · cases hb.symm.trans hbranch
  · cases hbranch
  · obtain ⟨hpc, hpending, -⟩ := busWrite_keeps_cpu hu
    exact .inl (movesOn_advance hpc hpending)
  · obtain ⟨hpc, hpending⟩ := writeControl_keeps_flow hu
    exact .inl (movesOn_advance hpc hpending)
  · exact absurd hi hexrt
  · exact .inr hraise

/-- Settles O37, from the refusals of the control register space, which RDCR and WRCR hand on in kernel mode. -/
theorem controlRegisterRefusals : Obligations.ControlRegisterRefusals := by
  intro r n s hk
  refine ⟨fun hlo hhi => ⟨?_, ?_⟩, fun hro => ?_⟩
  · exact exec_rdcr_refused hk (readControl_unimplemented hlo hhi)
  · exact exec_wrcr_refused hk (writeControl_unimplemented hlo hhi)
  · exact exec_wrcr_refused hk (writeControl_readOnly hro)

/-- Settles O46, by the cases of `exec_next_cases`: without WRCR, only EXRT and an exception entry touch a control register. -/
theorem controlRegisterWriters : Obligations.ControlRegisterWriters := by
  intro i s t h hwrcr
  rcases exec_next_cases h with ⟨-, r, v, rfl⟩ | ⟨-, -, g, rfl⟩ | ⟨-, -, g, rfl⟩ | ⟨ra, rb, imm, u, -, -, hu, rfl⟩ |
    ⟨ra, cb, u, hi, -⟩ | ⟨hi, -, rfl⟩ | ⟨c, hc, rfl⟩
  · exact ⟨rfl, rfl, .inr ⟨rfl, rfl, rfl, fun _ => rfl⟩⟩
  · exact ⟨rfl, rfl, .inr ⟨rfl, rfl, rfl, fun _ => rfl⟩⟩
  · exact ⟨rfl, rfl, .inr ⟨rfl, rfl, rfl, fun _ => rfl⟩⟩
  · obtain ⟨-, -, -, hstatus, hprev, hepc, hvec, hcode, hmask⟩ := busWrite_keeps_cpu hu
    exact ⟨hvec, hmask, .inr ⟨hepc, hcode, hprev, fun _ => hstatus⟩⟩
  · exact absurd hi (hwrcr ra cb)
  · exact ⟨rfl, rfl, .inr ⟨rfl, rfl, rfl, fun hne => absurd hi hne⟩⟩
  · exact ⟨rfl, rfl, .inl ⟨c, hc, rfl⟩⟩

/-- Settles O42: after reset the program counter is 0, and the memory list and the record of stored words are empty. -/
theorem resetMeetsTheInvariant : Obligations.ResetMeetsTheInvariant :=
  ⟨rfl, reset_mem_wf, rfl, fun _ h => absurd h List.not_mem_nil⟩

end Sys2Proof.Machine
end

section
/-!
SUPPORT. What the statements about memory (spec/20_memory.md) need: the reads and stores that no responder or no write rule meets,
the frame of an accepted store, the fetch's three ways to stop, and the invariants carried through a whole step.
-/

namespace Sys2Proof.Machine

variable {s t u : State}

/-! ### LDW and STW by the alignment of the address and the answer of the bus (R82, R170 to R172) -/

theorem exec_ldw (ra rb : Reg) (imm : Imm) (s : State) :
    exec (.ldw ra rb imm) s = loadWord (readReg s ra + imm.signExtend 32) rb s := rfl

theorem exec_stw (ra rb : Reg) (imm : Imm) (s : State) :
    exec (.stw ra rb imm) s = storeWord (readReg s ra + imm.signExtend 32) (readReg s rb) s := rfl

theorem isAligned_eq_false {a : Word} (h : a.extractLsb' 0 2 ≠ 0#2) : isAligned a = false := by
  simpa [isAligned] using h

theorem enterException_frame (c : Cause) (s : State) :
    sameRegsBut [] s (enterException c s) ∧ sameMemory s (enterException c s) ∧ sameDevices s (enterException c s) :=
  ⟨fun _ _ => rfl, ⟨fun _ => rfl, rfl⟩, rfl, rfl, rfl, rfl⟩

theorem loadWord_misaligned {a : Word} {r : Reg} (h : isAligned a = false) :
    loadWord a r s = .next (enterException .addressMissAlign s) :=
  loadWord_next.2 (.inr ⟨h, rfl⟩)

theorem storeWord_misaligned {a v : Word} (h : isAligned a = false) :
    storeWord a v s = .next (enterException .addressMissAlign s) :=
  storeWord_next.2 (.inr ⟨h, rfl⟩)

theorem loadWord_noResponder {a : Word} {r : Reg} (h4 : a.toNat % 4 = 0) (h : busRead s a = none) :
    loadWord a r s = .fault (.loadNoResponder a) := by
  simp [loadWord, (isAligned_iff a).2 h4, h]

theorem storeWord_refused {a v : Word} {e : Refusal} (h4 : a.toNat % 4 = 0) (h : busWrite s a v = .error e) :
    storeWord a v s = .refused e := by
  simp [storeWord, (isAligned_iff a).2 h4, h]

/-- An aligned load that completes writes one general register, so it leaves the control registers alone. -/
theorem loadWord_aligned_sameControl {a : Word} {r : Reg} (ha : isAligned a = true) (h : loadWord a r s = .next t) :
    sameControl s t := by
  rcases loadWord_next.1 h with ⟨-, v, -, rfl⟩ | ⟨hf, -⟩
  · exact ⟨rfl, rfl, rfl, rfl, rfl, rfl⟩
  · cases ha.symm.trans hf

/-- An aligned store that completes is an accepted bus write, which leaves the control registers alone. -/
theorem storeWord_aligned_sameControl {a v : Word} (ha : isAligned a = true) (h : storeWord a v s = .next t) :
    sameControl s t := by
  rcases storeWord_next.1 h with ⟨-, u, hu, rfl⟩ | ⟨hf, -⟩
  · obtain ⟨-, -, -, hcontrol⟩ := busWrite_keeps_cpu hu
    exact hcontrol
  · cases ha.symm.trans hf

/-! ### The refused bus writes (R74, R91, R235, R242) -/

/-- The whole ROM window, past the end of the ROM too, refuses a store. -/
theorem busWrite_romWindow {a v : Word} (h : a.toNat < 0x20000000) : busWrite s a v = .error (.storeToRom a) := by
  by_cases hrom : inRom a.toNat
  · simp [busWrite, locate_eq_rom hrom]
  · have hn : noResponder a.toNat := .inl ⟨Nat.not_lt.1 hrom, h⟩
    rcases locate_noResponder hn with ⟨-, hl⟩ | ⟨hge, -⟩
    · simp [busWrite, hl]
    · omega

theorem busWrite_noResponder {a v : Word} (hge : 0x20000000 ≤ a.toNat) (h : noResponder a.toNat) :
    busWrite s a v = .error (.storeNoResponder a) := by
  rcases locate_noResponder h with ⟨hlt, -⟩ | ⟨-, hl⟩
  · omega
  · simp [busWrite, hl]

theorem busWrite_inputPort (v : Word) : busWrite s 0x80000000#32 v = .error .gpioInputPortWrite := rfl

theorem busWrite_uartData_busy (v : Word) (h : s.uart.tx.isSome = true) :
    busWrite s 0x60000004#32 v = .error .uartTransmitBusy := by
  have hl : locate 0x60000004#32 = .uart .data := rfl
  simp [busWrite, hl, uartWrite, h]

/-! ### The fetch (R74, R90, R117) -/

/-- Every address whose word an STW may have written answers a read, and so does the ROM. -/
theorem busRead_answers {a : Word} (h : inRom a.toNat ∨ inSpm a.toNat ∨ inWritableDevice a.toNat) :
    ∃ v, busRead s a = some v := by
  rcases h with h | h | h
  · exact ⟨_, busRead_mem (.inl h)⟩
  · exact ⟨_, busRead_mem (.inr h)⟩
  · exact busRead_device h

theorem fetchAndExecute_noResponder (h : noResponder s.pc.toNat) :
    fetchAndExecute s = .fault (.fetchNoResponder s.pc) := by
  simp [fetchAndExecute, fetch, busRead_noResponder h]

theorem fetchAndExecute_storedWord (h : inRom s.pc.toNat ∨ inSpm s.pc.toNat ∨ inWritableDevice s.pc.toNat)
    (hs : s.pc.toNat ∈ s.stored) : fetchAndExecute s = .refused (.fetchOfStoredWord s.pc) := by
  obtain ⟨v, hv⟩ := busRead_answers (s := s) h
  simp [fetchAndExecute, fetch, hv, hs]

/-- From ROM or SPM, a word that no STW has written is executed as it stands in memory. -/
theorem fetchAndExecute_word (h : inRom s.pc.toNat ∨ inSpm s.pc.toNat) (hs : s.pc.toNat ∉ s.stored) :
    fetchAndExecute s = executeWord (readWord s.mem s.pc.toNat) s := by
  simp [fetchAndExecute, fetch, busRead_mem h, hs]

theorem executeWord_reservedField {w : Word} (h : decodeWord w = .reservedField) :
    executeWord w s = .refused (.reservedField w) := by
  simp [executeWord, h]

theorem fetchAndExecute_reservedField (h : inRom s.pc.toNat ∨ inSpm s.pc.toNat) (hs : s.pc.toNat ∉ s.stored)
    (hw : decodeWord (readWord s.mem s.pc.toNat) = .reservedField) :
    fetchAndExecute s = .refused (.reservedField (readWord s.mem s.pc.toNat)) :=
  (fetchAndExecute_word h hs).trans (executeWord_reservedField hw)

/-- A step that takes no interrupt fetches and executes in the state after the device steps. -/
theorem step_of_execute (h : irqChoice (irqLines (deviceSteps s)) (deviceSteps s) = .execute) :
    step s = fetchAndExecute (noteWait (irqLines (deviceSteps s)) (deviceSteps s)) := by
  simp [step_eq, cpuStep, h]

/-! ### What instructions do to memory and to the devices (R79, R85, R87, R91) -/

/-- Only STW reaches memory, the record of stored words or a device: an instruction that completes is an accepted store, or leaves all
three as they were. -/
theorem exec_stores_or_keeps {i : Instr} (h : exec i s = .next t) :
    (∃ ra rb imm u, i = .stw ra rb imm ∧ isAligned (effectiveAddress (readReg s ra) imm) = true ∧
      busWrite s (effectiveAddress (readReg s ra) imm) (readReg s rb) = .ok u ∧ t = advance u) ∨
    (t.mem = s.mem ∧ t.stored = s.stored ∧ sameDevices s t) := by
  rcases exec_next_cases h with ⟨-, r, v, rfl⟩ | ⟨-, -, g, rfl⟩ | ⟨-, -, g, rfl⟩ | hstore | ⟨ra, cb, u, -, -, hu, rfl⟩ |
    ⟨-, -, rfl⟩ | ⟨c, -, rfl⟩
  · exact .inr ⟨rfl, rfl, rfl, rfl, rfl, rfl⟩
  · exact .inr ⟨rfl, rfl, rfl, rfl, rfl, rfl⟩
  · exact .inr ⟨rfl, rfl, rfl, rfl, rfl, rfl⟩
  · exact .inl hstore
  · right
    rcases writeControl_ok hu with ⟨-, rfl⟩ | ⟨-, rfl⟩ | ⟨-, rfl⟩ | ⟨-, rfl⟩ | ⟨-, rfl⟩ | ⟨-, rfl⟩ <;>
      exact ⟨rfl, rfl, rfl, rfl, rfl, rfl⟩
  · exact .inr ⟨rfl, rfl, rfl, rfl, rfl, rfl⟩
  · exact .inr ⟨rfl, rfl, rfl, rfl, rfl, rfl⟩

/-- To the memory list an accepted store does one of two things: it writes a word of SPM, or (a device register) nothing. -/
theorem busWrite_mem {a v : Word} (h : busWrite s a v = .ok u) :
    (inSpm a.toNat ∧ u.mem = writeWord s.mem a.toNat v) ∨ u.mem = s.mem := by
  rcases busWrite_ok h with ⟨hl, rfl⟩ | ⟨_, -, rfl⟩ | ⟨_, _, -, -, rfl⟩ | ⟨_, _, -, -, rfl⟩
  · exact .inl ⟨locate_spm hl, rfl⟩
  · exact .inr rfl
  · exact .inr rfl
  · exact .inr rfl

/-- The word at `a` is the same before and after a run without an STW to it. -/
theorem runsWithoutStoreTo_readWord {a : Word} (h4 : a.toNat % 4 = 0) (between : List Instr) :
    ∀ s : State, runsWithoutStoreTo a between s t → readWord t.mem a.toNat = readWord s.mem a.toNat := by
  induction between with
  | nil =>
    rintro s ⟨hmem, -⟩
    exact readWord_congr hmem _
  | cons i rest ih =>
    rintro s ⟨u, v, ⟨hmem, -⟩, hno, hexec, hrest⟩
    calc readWord t.mem a.toNat
        = readWord v.mem a.toNat := ih v hrest
      _ = readWord u.mem a.toNat := exec_readWord h4 hno hexec
      _ = readWord s.mem a.toNat := readWord_congr hmem _

/-- After an STW to a word of SPM, that word is the register stored. -/
theorem exec_stw_readWord {ra rb : Reg} {imm : Imm} (h4 : (effectiveAddress (readReg s ra) imm).toNat % 4 = 0)
    (hspm : inSpm (effectiveAddress (readReg s ra) imm).toNat) (h : exec (.stw ra rb imm) s = .next t) :
    readWord t.mem (effectiveAddress (readReg s ra) imm).toNat = readReg s rb := by
  rcases storeWord_next.1 h with ⟨-, u, hu, rfl⟩ | ⟨hf, -⟩
  · rw [busWrite_spm hspm] at hu
    cases hu
    exact readWord_writeWord_same ..
  · cases ((isAligned_iff _).2 h4).symm.trans hf

/-- An LDW from an aligned word of ROM or SPM completes, with that word in its register. -/
theorem exec_ldw_mem {ra rb : Reg} {imm : Imm} {a : Word} (ha : effectiveAddress (readReg s ra) imm = a)
    (h4 : a.toNat % 4 = 0) (hm : inRom a.toNat ∨ inSpm a.toNat) :
    exec (.ldw ra rb imm) s = .next (advance (writeReg s rb (readWord s.mem a.toNat))) := by
  subst ha
  exact loadWord_next.2 (.inl ⟨(isAligned_iff _).2 h4, _, busRead_mem hm, rfl⟩)

/-! ### From the instructions to the whole step -/

/-- What device steps, exception entries and instructions keep, a step keeps. The model's own counters may take any value in the
state in which the instruction executes. -/
theorem step_keeps {P : State → Prop} (hdevice : ∀ s k, P s → P { deviceSteps s with env := k })
    (henter : ∀ c s, P s → P (enterException c s)) (hexec : ∀ i s t, P s → exec i s = .next t → P t)
    (hs : P s) (h : step s = .next t) : P t := by
  rcases step_next h with rfl | ⟨i, k, h⟩ | ⟨k, rfl⟩
  · exact henter _ _ (hdevice s _ hs)
  · exact hexec i _ t (hdevice s k hs) h
  · exact henter _ _ (hdevice s k hs)

/-! ### The invariant (R83) -/

/-- An instruction at an aligned address goes on at an aligned address. -/
theorem exec_pc_aligned {i : Instr} (hpc : s.pc.toNat % 4 = 0) (h : exec i s = .next t) : t.pc.toNat % 4 = 0 := by
  rcases exec_next_cases h with ⟨-, r, v, rfl⟩ | ⟨-, -, g, rfl⟩ | ⟨-, -, g, rfl⟩ | ⟨ra, rb, imm, u, -, -, hu, rfl⟩ |
    ⟨ra, cb, u, -, -, hu, rfl⟩ | ⟨-, -, rfl⟩ | ⟨c, -, rfl⟩
  · exact successor_aligned (s := writeReg s r v) hpc
  · exact add_four_aligned hpc
  · exact add_four_aligned hpc
  · obtain ⟨hupc, -⟩ := busWrite_keeps_cpu hu
    exact successor_aligned (hupc ▸ hpc)
  · obtain ⟨hupc, -⟩ := writeControl_keeps_flow hu
    exact successor_aligned (hupc ▸ hpc)
  · exact byteAddr_aligned _
  · exact byteAddr_aligned _

/-- An accepted store to an aligned address keeps the canonical form of memory. -/
theorem busWrite_mem_wf {a v : Word} (h4 : a.toNat % 4 = 0) (hwf : s.mem.wf = true) (h : busWrite s a v = .ok u) :
    u.mem.wf = true := by
  rcases busWrite_mem h with ⟨⟨hlo, hhi⟩, hmem⟩ | hmem
  · have hbacked : ∀ k < 4, isBacked (a.toNat + k) = true := fun k hk => isBacked_of_spm_word h4 hlo hhi hk
    rw [hmem]
    exact writeWord_wf v hwf (hbacked 0 (by decide)) (hbacked 1 (by decide)) (hbacked 2 (by decide))
      (hbacked 3 (by decide))
  · rwa [hmem]

/-- An accepted store to an aligned address keeps the canonical form of the record of stored words. -/
theorem busWrite_storedWf {a v : Word} (h4 : a.toNat % 4 = 0) (hwf : storedWf s.stored) (h : busWrite s a v = .ok u) :
    storedWf u.stored := by
  obtain ⟨hwritable, hstored⟩ := busWrite_stored h
  rw [hstored]
  exact noteStored_wf hwf h4 hwritable

theorem exec_inv (i : Instr) (s t : State) (hs : Inv s) (h : exec i s = .next t) : Inv t := by
  obtain ⟨hpc, hmem, hstored⟩ := hs
  refine ⟨exec_pc_aligned hpc h, ?_⟩
  rcases exec_stores_or_keeps h with ⟨ra, rb, imm, u, -, haligned, hu, rfl⟩ | ⟨hm, hst, -⟩
  · have h4 := (isAligned_iff _).1 haligned
    exact ⟨busWrite_mem_wf (u := u) h4 hmem hu, busWrite_storedWf (u := u) h4 hstored hu⟩
  · exact ⟨hm ▸ hmem, hst ▸ hstored⟩

theorem enterException_inv (c : Cause) (s : State) (hs : Inv s) : Inv (enterException c s) := by
  obtain ⟨-, hmem, hstored⟩ := hs
  exact ⟨byteAddr_aligned _, hmem, hstored⟩

/-! ### The bytes outside the scratch pad memory (R73, R91) -/

/-- Every byte outside the scratch pad memory reads as it read. -/
def sameOutsideSpm (s t : State) : Prop := ∀ a, ¬ inSpm a → readByte t.mem a = readByte s.mem a

theorem sameOutsideSpm_trans (h : sameOutsideSpm s t) (h' : sameOutsideSpm t u) : sameOutsideSpm s u :=
  fun a ha => (h' a ha).trans (h a ha)

/-- The four bytes of an aligned word of SPM lie in SPM, so an accepted store reaches no other byte. -/
theorem busWrite_sameOutsideSpm {a v : Word} (h4 : a.toNat % 4 = 0) (h : busWrite s a v = .ok u) :
    sameOutsideSpm s u := by
  intro x hx
  rcases busWrite_mem h with ⟨⟨hlo, hhi⟩, hmem⟩ | hmem
  · have hout : x < a.toNat ∨ a.toNat + 4 ≤ x := by
      unfold inSpm at hx
      omega
    rw [hmem, readByte_writeWord_outside _ _ _ _ hout]
  · rw [hmem]

theorem exec_sameOutsideSpm {i : Instr} (h : exec i s = .next t) : sameOutsideSpm s t := by
  rcases exec_stores_or_keeps h with ⟨ra, rb, imm, u, -, haligned, hu, rfl⟩ | ⟨hmem, -, -⟩
  · exact busWrite_sameOutsideSpm (u := u) ((isAligned_iff _).1 haligned) hu
  · exact fun a _ => by rw [hmem]

end Sys2Proof.Machine
end

section
/-! SUPPORT. The statements about memory (spec/20_memory.md), settled. -/

namespace Sys2Proof.Machine

/-- Settles O41: the device steps touch no part of the invariant, and exception entries and instructions keep it. -/
theorem stepKeepsTheInvariant : Obligations.StepKeepsTheInvariant :=
  fun _ _ hs h => step_keeps (fun _ _ hs => hs) enterException_inv exec_inv hs h

/-- Settles O43: of all that a step does only a store reaches memory, and it reaches SPM alone. -/
theorem stepNeverChangesRom : Obligations.StepNeverChangesRom :=
  fun s _ h => step_keeps (P := sameOutsideSpm s) (fun _ _ hs => hs) (fun _ _ hs => hs)
    (fun _ _ _ hs hexec => sameOutsideSpm_trans hs (exec_sameOutsideSpm hexec)) (fun _ _ => rfl) h

/-- Settles O8: the three ways the fetch stops, first by themselves; in a step they are those of the state after the device steps,
which has the same program counter, memory and record of stored words. -/
theorem fetchStops : Obligations.FetchStops := by
  intro s
  refine ⟨fun hexecute => ?_, fetchAndExecute_noResponder, fetchAndExecute_storedWord, fetchAndExecute_reservedField⟩
  rw [step_of_execute hexecute]
  exact ⟨fetchAndExecute_noResponder (s := noteWait _ (deviceSteps s)),
    fetchAndExecute_storedWord (s := noteWait _ (deviceSteps s)),
    fetchAndExecute_reservedField (s := noteWait _ (deviceSteps s))⟩

/-- Settles O24: the alignment of the address alone decides between the exception and the access. -/
theorem misalignedAccessTraps : Obligations.MisalignedAccessTraps := by
  intro ra rb imm s a
  have hframe := enterException_frame .addressMissAlign s
  refine ⟨fun hmis => ?_, fun haligned => ?_⟩
  · have hf : isAligned a = false := isAligned_eq_false hmis
    exact ⟨⟨_, loadWord_misaligned hf, rfl, hframe⟩, ⟨_, storeWord_misaligned hf, rfl, hframe⟩⟩
  · have ht : isAligned a = true := beq_iff_eq.2 haligned
    exact ⟨fun _ => loadWord_aligned_sameControl ht, fun _ => storeWord_aligned_sameControl ht⟩

/-- Settles O27: the read of the bus has no answer, and an aligned load hands that on. -/
theorem loadWithNoResponderIsStuck : Obligations.LoadWithNoResponderIsStuck :=
  fun ra rb imm s h4 hn => (exec_ldw ra rb imm s).trans (loadWord_noResponder h4 (busRead_noResponder hn))

/-- Settles O30: the bus refuses the write in each of the four cases, and an aligned store hands the refusal on. -/
theorem storeRefusals : Obligations.StoreRefusals := by
  intro ra rb imm s a
  have hexec : exec (.stw ra rb imm) s = storeWord a (readReg s rb) s := exec_stw ..
  rw [hexec]
  refine ⟨fun h4 hrom => ?_, fun h4 hge hn => ?_, fun ha => ?_, fun ha hbusy => ?_⟩
  · exact storeWord_refused h4 (busWrite_romWindow hrom)
  · exact storeWord_refused h4 (busWrite_noResponder hge hn)
  · rw [ha]
    exact storeWord_refused (by decide) (busWrite_inputPort _)
  · rw [ha]
    exact storeWord_refused (by decide) (busWrite_uartData_busy _ hbusy)

/-- Settles O31: the store puts the value into the word, the run between leaves the word as it was, and the load reads it. -/
theorem loadReturnsLatestStore : Obligations.LoadReturnsLatestStore := by
  intro ra rb qa qb imm jmm s t u between a h4 hspm hstore hrun haddr
  have hword : readWord u.mem a.toNat = readReg s rb :=
    (runsWithoutStoreTo_readWord h4 between t hrun).trans (exec_stw_readWord h4 hspm hstore)
  obtain ⟨hreg, hframe⟩ := writesReg_advance (s := u) (r := qb) (v := readWord u.mem a.toNat)
  exact ⟨_, exec_ldw_mem haddr h4 (.inr hspm), hreg.trans hword, hframe⟩

/-- Settles O48: an instruction that is no STW is in the second case of `exec_stores_or_keeps`. -/
theorem onlyStoresChangeMemoryOrDevices : Obligations.OnlyStoresChangeMemoryOrDevices := by
  intro i s t hno h
  rcases exec_stores_or_keeps h with ⟨ra, rb, imm, u, hi, -⟩ | ⟨hmem, hstored, hdevices⟩
  · exact absurd hi (hno ra rb imm)
  · exact ⟨⟨fun a => by rw [hmem], hstored⟩, hdevices⟩

end Sys2Proof.Machine
end

section
/-!
SUPPORT. The decoder said once: the values of OP by format, the check of the reserved field, the fields of a word put together again,
and how a word decodes by its OP (spec/30_encoding.md R101 to R109, R116, R117).
-/

namespace Sys2Proof

variable {w : Word} {i : Instr}

/-! ### The values of OP by format (R108) -/

/-- The values of OP with format R3. -/
def opsR3 : List Nat := [0x00, 0x02, 0x04, 0x06, 0x08, 0x0A, 0x0B, 0x0C, 0x0E]

/-- The values of OP with format R2I. -/
def opsR2I : List Nat := [0x01, 0x03, 0x05, 0x07, 0x09, 0x0D, 0x0F, 0x10, 0x11, 0x12, 0x13, 0x16, 0x17]

/-- The values of OP with format R2. -/
def opsR2 : List Nat := [0x19, 0x1A]

/-- The values of OP with format R1. -/
def opsR1 : List Nat := [0x14, 0x15]

/-- The values of OP with format R0. -/
def opsR0 : List Nat := [0x18, 0x1B]

theorem assigned_op_has_format :
    ∀ op < 0x1C, op ∈ opsR3 ∨ op ∈ opsR2I ∨ op ∈ opsR2 ∨ op ∈ opsR1 ∨ op ∈ opsR0 := by decide

/-! No OP has two formats. (R2I has no reserved field, so the other lists need not name it.) -/

theorem opsR3_apart : ∀ op ∈ opsR3, op < 0x1C ∧ op ∉ opsR2 ∧ op ∉ opsR1 ∧ op ∉ opsR0 := by decide
theorem opsR2I_apart : ∀ op ∈ opsR2I, op < 0x1C ∧ op ∉ opsR3 ∧ op ∉ opsR2 ∧ op ∉ opsR1 ∧ op ∉ opsR0 := by decide
theorem opsR2_apart : ∀ op ∈ opsR2, op < 0x1C ∧ op ∉ opsR3 ∧ op ∉ opsR1 ∧ op ∉ opsR0 := by decide
theorem opsR1_apart : ∀ op ∈ opsR1, op < 0x1C ∧ op ∉ opsR3 ∧ op ∉ opsR2 ∧ op ∉ opsR0 := by decide
theorem opsR0_apart : ∀ op ∈ opsR0, op < 0x1C ∧ op ∉ opsR3 ∧ op ∉ opsR2 ∧ op ∉ opsR1 := by decide

theorem unassigned_apart : ∀ op ≥ 0x1C, op ∉ opsR3 ∧ op ∉ opsR2 ∧ op ∉ opsR1 ∧ op ∉ opsR0 := by
  intro op h
  refine ⟨fun hm => ?_, fun hm => ?_, fun hm => ?_, fun hm => ?_⟩
  · exact Nat.not_le.2 (opsR3_apart op hm).1 h
  · exact Nat.not_le.2 (opsR2_apart op hm).1 h
  · exact Nat.not_le.2 (opsR1_apart op hm).1 h
  · exact Nat.not_le.2 (opsR0_apart op hm).1 h

/-! ### The check of the reserved field (R117) -/

/-- What formats R3, R2, R1 and R0 share: the instruction if the low `n` bits are zero, else the refusal. -/
def instrIfReservedZero (w : Word) (n : Nat) (i : Instr) : Decoded :=
  if w.extractLsb' 0 n = 0#n then .instr i else .reservedField

theorem instrIfReservedZero_eq_instr {n : Nat} {j : Instr} :
    instrIfReservedZero w n j = .instr i ↔ w.extractLsb' 0 n = 0#n ∧ j = i := by
  unfold instrIfReservedZero; split <;> simp [*]

theorem instrIfReservedZero_cases (w : Word) (n : Nat) (i : Instr) :
    instrIfReservedZero w n i = .instr i ∨ instrIfReservedZero w n i = .reservedField := by
  unfold instrIfReservedZero; split <;> simp

/-- The low `n` bits of a word are zero just when the mask of these bits leaves nothing. -/
theorem lowBits_eq_zero_iff (w : Word) {n : Nat} {mask : Word} (h : mask.toNat = 2 ^ n - 1) :
    w.extractLsb' 0 n = 0#n ↔ w &&& mask = 0#32 := by
  simp only [BitVec.toNat_eq, BitVec.extractLsb'_toNat, BitVec.toNat_and, BitVec.toNat_ofNat, h,
    Nat.and_two_pow_sub_one_eq_mod, Nat.shiftRight_zero, Nat.zero_mod]

theorem instrIfReservedZero_eq_reservedField {n : Nat} {mask : Word} (h : mask.toNat = 2 ^ n - 1) :
    instrIfReservedZero w n i = .reservedField ↔ w &&& mask ≠ 0#32 := by
  rw [Ne, ← lowBits_eq_zero_iff w h]
  unfold instrIfReservedZero; split <;> simp [*]

/-! ### A word from its fields (R101 to R107) -/

/-- Two neighbouring fields of a word, one field. -/
theorem join_fields (w : Word) {hi lo m n : Nat} (h : hi = lo + n) :
    w.extractLsb' hi m ++ w.extractLsb' lo n = w.extractLsb' lo (m + n) :=
  BitVec.extractLsb'_append_extractLsb'_eq_extractLsb' h

/-- The upper three fields, which four of the five formats put before their own low bits. -/
theorem join_op_ra_rb (w : Word) :
    opField w ++ bitsOfReg (raField w) ++ bitsOfReg (rbField w) = w.extractLsb' 16 16 := by
  simp only [raField, rbField, bitsOfReg_regOfBits]
  rw [opField, join_fields w (lo := 21) (n := 5) rfl, join_fields w (lo := 16) (n := 5) rfl]

theorem join_op_ra (w : Word) : opField w ++ bitsOfReg (raField w) = w.extractLsb' 21 11 := by
  rw [raField, bitsOfReg_regOfBits]
  exact join_fields w rfl

theorem encodeR2I_fields (w : Word) : encodeR2I (opField w) (raField w) (rbField w) (immField w) = w := by
  rw [encodeR2I, join_op_ra_rb]
  exact (join_fields w rfl).trans BitVec.extractLsb'_eq_self

theorem encodeR3_fields (h : w.extractLsb' 0 11 = 0#11) :
    encodeR3 (opField w) (raField w) (rbField w) (rcField w) = w := by
  rw [encodeR3, join_op_ra_rb, rcField, bitsOfReg_regOfBits, join_fields w (n := 5) rfl, ← h]
  exact (join_fields w rfl).trans BitVec.extractLsb'_eq_self

theorem encodeR2_fields (h : w.extractLsb' 0 16 = 0#16) : encodeR2 (opField w) (raField w) (rbField w) = w := by
  rw [encodeR2, join_op_ra_rb, ← h]
  exact (join_fields w rfl).trans BitVec.extractLsb'_eq_self

theorem encodeR1_fields (h : w.extractLsb' 0 21 = 0#21) : encodeR1 (opField w) (raField w) = w := by
  rw [encodeR1, join_op_ra, ← h]
  exact (join_fields w rfl).trans BitVec.extractLsb'_eq_self

theorem encodeR0_fields (h : w.extractLsb' 0 26 = 0#26) : encodeR0 (opField w) = w := by
  rw [encodeR0, ← h]
  exact (join_fields w rfl).trans BitVec.extractLsb'_eq_self

/-! ### How a word decodes by its OP (R108, R109, R116) -/

/-- Every word's OP belongs to one of the five formats, or is unassigned. -/
theorem op_format_cases (w : Word) :
    (opField w).toNat ∈ opsR3 ∨ (opField w).toNat ∈ opsR2I ∨ (opField w).toNat ∈ opsR2 ∨ (opField w).toNat ∈ opsR1 ∨
      (opField w).toNat ∈ opsR0 ∨ 0x1C ≤ (opField w).toNat := by
  rcases Nat.lt_or_ge (opField w).toNat 0x1C with h | h
  · have hformat := assigned_op_has_format _ h
    tauto
  · tauto

theorem opField_eq_ofNat {op : Nat} (h : (opField w).toNat = op) : opField w = BitVec.ofNat 6 op := by
  simp [← h]

/-- An OP of format R3 decodes by that format, to the instruction that is encoded from the OP and the three register fields. -/
theorem decodeWord_of_opsR3 (h : (opField w).toNat ∈ opsR3) :
    ∃ i, decodeWord w = instrIfReservedZero w 11 i ∧
      encodeWord i = encodeR3 (opField w) (raField w) (rbField w) (rcField w) := by
  simp only [opsR3, List.mem_cons, List.not_mem_nil, or_false] at h
  unfold decodeWord
  rcases h with h | h | h | h | h | h | h | h | h <;> rw [h, opField_eq_ofNat h] <;> exact ⟨_, rfl, rfl⟩

theorem decodeWord_of_opsR2I (h : (opField w).toNat ∈ opsR2I) :
    ∃ i, decodeWord w = .instr i ∧ encodeWord i = encodeR2I (opField w) (raField w) (rbField w) (immField w) := by
  simp only [opsR2I, List.mem_cons, List.not_mem_nil, or_false] at h
  unfold decodeWord
  rcases h with h | h | h | h | h | h | h | h | h | h | h | h | h <;> rw [h, opField_eq_ofNat h] <;> exact ⟨_, rfl, rfl⟩

theorem decodeWord_of_opsR2 (h : (opField w).toNat ∈ opsR2) :
    ∃ i, decodeWord w = instrIfReservedZero w 16 i ∧ encodeWord i = encodeR2 (opField w) (raField w) (rbField w) := by
  simp only [opsR2, List.mem_cons, List.not_mem_nil, or_false] at h
  unfold decodeWord
  rcases h with h | h <;> rw [h, opField_eq_ofNat h] <;> exact ⟨_, rfl, rfl⟩

theorem decodeWord_of_opsR1 (h : (opField w).toNat ∈ opsR1) :
    ∃ i, decodeWord w = instrIfReservedZero w 21 i ∧ encodeWord i = encodeR1 (opField w) (raField w) := by
  simp only [opsR1, List.mem_cons, List.not_mem_nil, or_false] at h
  unfold decodeWord
  rcases h with h | h <;> rw [h, opField_eq_ofNat h] <;> exact ⟨_, rfl, rfl⟩

theorem decodeWord_of_opsR0 (h : (opField w).toNat ∈ opsR0) :
    ∃ i, decodeWord w = instrIfReservedZero w 26 i ∧ encodeWord i = encodeR0 (opField w) := by
  simp only [opsR0, List.mem_cons, List.not_mem_nil, or_false] at h
  unfold decodeWord
  rcases h with h | h <;> rw [h, opField_eq_ofNat h] <;> exact ⟨_, rfl, rfl⟩

theorem decodeWord_of_unassigned (h : 0x1C ≤ (opField w).toNat) : decodeWord w = .undefinedInstruction := by
  obtain ⟨k, hk⟩ := Nat.exists_eq_add_of_le' h
  unfold decodeWord
  rw [hk]
  rfl

/-! ### Operands in their fields (R101 to R107) -/

theorem raField_eq {r : Reg} (h : (w.extractLsb' 21 5).toNat = r.val) : raField w = r := Fin.ext h
theorem rbField_eq {r : Reg} (h : (w.extractLsb' 16 5).toNat = r.val) : rbField w = r := Fin.ext h
theorem rcField_eq {r : Reg} (h : (w.extractLsb' 11 5).toNat = r.val) : rcField w = r := Fin.ext h

theorem instrIfReservedZero_of_zero {n : Nat} {j : Instr} (h : (w.extractLsb' 0 n).toNat = 0) (hj : j = i) :
    instrIfReservedZero w n j = .instr i :=
  instrIfReservedZero_eq_instr.2 ⟨BitVec.eq_of_toNat_eq (h.trans (Nat.zero_mod _).symm), hj⟩

/-- The cases are the five formats; in each, the fields that the decoder reads are the operands. -/
theorem decodeWord_of_operands (hop : opField w = i.opcode) (h : Machine.hasOperands w i) : decodeWord w = .instr i := by
  unfold decodeWord
  rw [hop]
  cases i with
  | andr ra rb rc | orr ra rb rc | xorr ra rb rc | addsr ra rb rc | addur ra rb rc | subsr ra rb rc | subur ra rb rc
  | shrlr ra rb rc | shllr ra rb rc =>
    obtain ⟨hra, hrb, hrc, hlow⟩ := h
    exact instrIfReservedZero_of_zero hlow (by rw [raField_eq hra, rbField_eq hrb, rcField_eq hrc])
  | andi ra rb imm | ori ra rb imm | xori ra rb imm | addsi ra rb imm | addui ra rb imm | shrli ra rb imm
  | shlli ra rb imm | be ra rb imm | bne ra rb imm | bsgt ra rb imm | bugt ra rb imm | ldw ra rb imm
  | stw ra rb imm =>
    obtain ⟨hra, hrb, himm⟩ := h
    exact congrArg Decoded.instr (by rw [raField_eq hra, rbField_eq hrb, immField, himm])
  | rdcr ra rb | wrcr ra rb =>
    obtain ⟨hra, hrb, hlow⟩ := h
    exact instrIfReservedZero_of_zero hlow (by rw [raField_eq hra, rbField_eq hrb])
  | jmp ra | call ra =>
    obtain ⟨hra, hlow⟩ := h
    exact instrIfReservedZero_of_zero hlow (by rw [raField_eq hra])
  | trap | exrt => exact instrIfReservedZero_of_zero h rfl

@[simp] theorem toNat_bitsOfReg (r : Reg) : (bitsOfReg r).toNat = r.val :=
  congrArg Fin.val (regOfBits_bitsOfReg r)

theorem opField_encodeWord (i : Instr) : opField (encodeWord i) = i.opcode := by
  cases i <;> simp [encodeWord, Instr.opcode]

theorem hasOperands_encodeWord (i : Instr) : Machine.hasOperands (encodeWord i) i := by
  cases i <;> simp [encodeWord, Machine.hasOperands]

@[simp] theorem decodeWord_encodeWord (i : Instr) : decodeWord (encodeWord i) = .instr i :=
  decodeWord_of_operands (opField_encodeWord i) (hasOperands_encodeWord i)

/-! ### What the decoder answers (R108, R116, R117) -/

/-- A word with an assigned OP decodes to one instruction if its reserved field, of the `n` bits of its format, is zero, and then it is
the encoding of that instruction; else it is refused. -/
theorem decodeWord_of_assigned (h : (opField w).toNat < 0x1C) :
    ∃ n i, decodeWord w = instrIfReservedZero w n i ∧ (w.extractLsb' 0 n = 0#n → encodeWord i = w) := by
  rcases op_format_cases w with hop | hop | hop | hop | hop | hop
  · obtain ⟨i, hd, henc⟩ := decodeWord_of_opsR3 hop
    exact ⟨11, i, hd, fun hlow => henc.trans (encodeR3_fields hlow)⟩
  · obtain ⟨i, hd, henc⟩ := decodeWord_of_opsR2I hop
    have hempty : w.extractLsb' 0 0 = 0#0 := BitVec.of_length_zero
    exact ⟨0, i, hd.trans (instrIfReservedZero_eq_instr.2 ⟨hempty, rfl⟩).symm, fun _ => henc.trans (encodeR2I_fields w)⟩
  · obtain ⟨i, hd, henc⟩ := decodeWord_of_opsR2 hop
    exact ⟨16, i, hd, fun hlow => henc.trans (encodeR2_fields hlow)⟩
  · obtain ⟨i, hd, henc⟩ := decodeWord_of_opsR1 hop
    exact ⟨21, i, hd, fun hlow => henc.trans (encodeR1_fields hlow)⟩
  · obtain ⟨i, hd, henc⟩ := decodeWord_of_opsR0 hop
    exact ⟨26, i, hd, fun hlow => henc.trans (encodeR0_fields hlow)⟩
  · omega

/-- What the decoder can answer to a word: an instruction whose encoding the word is, an assigned OP
with a nonzero reserved field, or an unassigned OP. -/
theorem decodeWord_cases (w : Word) :
    (∃ i, decodeWord w = .instr i ∧ encodeWord i = w ∧ (opField w).toNat < 0x1C) ∨
    (decodeWord w = .reservedField ∧ (opField w).toNat < 0x1C) ∨
    (decodeWord w = .undefinedInstruction ∧ 0x1C ≤ (opField w).toNat) := by
  rcases Nat.lt_or_ge (opField w).toNat 0x1C with hlt | hge
  · obtain ⟨n, i, hd, henc⟩ := decodeWord_of_assigned hlt
    rcases instrIfReservedZero_cases w n i with h | h
    · obtain ⟨hlow, -⟩ := instrIfReservedZero_eq_instr.1 h
      exact .inl ⟨i, hd.trans h, henc hlow, hlt⟩
    · exact .inr (.inl ⟨hd.trans h, hlt⟩)
  · exact .inr (.inr ⟨decodeWord_of_unassigned hge, hge⟩)

theorem decodeWord_eq_undefinedInstruction : decodeWord w = .undefinedInstruction ↔ 0x1C ≤ (opField w).toNat := by
  rcases decodeWord_cases w with ⟨i, hd, -, hop⟩ | ⟨hd, hop⟩ | ⟨hd, hop⟩
  · simp [hd, hop]
  · simp [hd, hop]
  · simp [hd, hop]

theorem decodeWord_ne_truncated (w : Word) : decodeWord w ≠ .truncated := by
  rcases decodeWord_cases w with ⟨i, hd, -⟩ | ⟨hd, -⟩ | ⟨hd, -⟩ <;> simp [hd]

/-- A word is refused just when the mask of its OP's format finds a bit. -/
theorem decodeWord_eq_reservedField :
    decodeWord w = .reservedField ↔
      ((opField w).toNat ∈ opsR3 ∧ w &&& 0x000007FF#32 ≠ 0#32) ∨
      ((opField w).toNat ∈ opsR2 ∧ w &&& 0x0000FFFF#32 ≠ 0#32) ∨
      ((opField w).toNat ∈ opsR1 ∧ w &&& 0x001FFFFF#32 ≠ 0#32) ∨
      ((opField w).toNat ∈ opsR0 ∧ w &&& 0x03FFFFFF#32 ≠ 0#32) := by
  rcases op_format_cases w with hop | hop | hop | hop | hop | hop
  · obtain ⟨i, hd, -⟩ := decodeWord_of_opsR3 hop
    rw [hd, instrIfReservedZero_eq_reservedField (mask := 0x000007FF#32) rfl]
    simp [hop, opsR3_apart _ hop]
  · obtain ⟨i, hd, -⟩ := decodeWord_of_opsR2I hop
    rw [hd]
    simp [opsR2I_apart _ hop]
  · obtain ⟨i, hd, -⟩ := decodeWord_of_opsR2 hop
    rw [hd, instrIfReservedZero_eq_reservedField (mask := 0x0000FFFF#32) rfl]
    simp [hop, opsR2_apart _ hop]
  · obtain ⟨i, hd, -⟩ := decodeWord_of_opsR1 hop
    rw [hd, instrIfReservedZero_eq_reservedField (mask := 0x001FFFFF#32) rfl]
    simp [hop, opsR1_apart _ hop]
  · obtain ⟨i, hd, -⟩ := decodeWord_of_opsR0 hop
    rw [hd, instrIfReservedZero_eq_reservedField (mask := 0x03FFFFFF#32) rfl]
    simp [hop, opsR0_apart _ hop]
  · rw [decodeWord_of_unassigned hop]
    simp [unassigned_apart _ hop]

end Sys2Proof

namespace Sys2Proof.Machine

/-- A word with an unassigned OP, executed, is the entry of UndefinedInstruction (R116). -/
theorem executeWord_unassigned {w : Word} (s : State) (h : 0x1C ≤ (opField w).toNat) :
    executeWord w s = .next (enterException .undefinedInstruction s) := by
  simp [executeWord, decodeWord_of_unassigned h, raise_eq]

theorem zextImm_eq_append (imm : Imm) : zextImm imm = 0#16 ++ imm := by
  simp [zextImm, BitVec.setWidth_eq_append]

end Sys2Proof.Machine
end

section
/-! SUPPORT. The statements about the encoding (spec/30_encoding.md), settled. -/

namespace Sys2Proof.Machine

/-- Settles O1: the word of an instruction carries its OP and its operands, its bytes make up the word, and a 32-bit table row is the
word itself. -/
theorem decodeInvertsEncode : Obligations.DecodeInvertsEncode := by
  intro i
  have hword : decodeWord (encodeWord i) = .instr i := decodeWord_encodeWord i
  have hbytes : ∀ rest, decode (encode i ++ rest) = .instr i := fun rest =>
    (decode_bytesOfWord (encodeWord i) rest).trans hword
  refine ⟨hword, hbytes, ?_⟩
  have hrow : decode (bytesOfWord (encodeWord i)) = .instr i := by simpa [encode] using hbytes []
  rw [decodeTableWord, tableWord_toNat, hrow]

/-- Settles O2: the decoder answers an instruction to its encoding alone. -/
theorem encodeInvertsDecode : Obligations.EncodeInvertsDecode := by
  intro w i h
  rcases decodeWord_cases w with ⟨j, hd, henc, -⟩ | ⟨hd, -⟩ | ⟨hd, -⟩
  · obtain rfl := Decoded.instr.inj (hd.symm.trans h)
    exact henc
  · cases hd.symm.trans h
  · cases hd.symm.trans h

/-- Settles O3: the OP selects the decoder of the instruction's format, which reads its fields. -/
theorem opcodeAndFieldsSelectInstruction : Obligations.OpcodeAndFieldsSelectInstruction :=
  fun _ _ hop h => decodeWord_of_operands hop h

/-- Settles O4, by the format of the word's OP, whose decoder refuses just the words that its mask finds nonzero. -/
theorem everyWordIsClassified : Obligations.EveryWordIsClassified := fun w =>
  ⟨decodeWord_eq_undefinedInstruction, decodeWord_eq_reservedField, decodeWord_ne_truncated w⟩

/-- Settles O7: the word decodes to no instruction, so executing it is the exception entry; a step executes the word that stands at
the program counter, in the state after the device steps. -/
theorem unassignedOpcodeTakesException : Obligations.UnassignedOpcodeTakesException := by
  refine ⟨fun w s hop => ⟨_, executeWord_unassigned s hop, entered_enterException s _⟩, ?_⟩
  rintro s u rfl hexecute hpc hstored hop
  refine ⟨rfl, rfl, rfl, ⟨rfl, rfl, rfl, rfl, rfl, rfl⟩, ⟨fun _ => rfl, rfl⟩, _, ?_,
    entered_enterException _ .undefinedInstruction⟩
  rw [step_of_execute hexecute]
  exact (fetchAndExecute_word (s := noteWait _ (deviceSteps s)) hpc hstored).trans (executeWord_unassigned _ hop)

/-- Settles O14: each of the three writes one register and goes on; the immediate is zero-extended. -/
theorem logicImmediateInstructions : Obligations.LogicImmediateInstructions := by
  intro ra rb imm s
  rw [← zextImm_eq_append]
  exact ⟨⟨decodeWord_encodeWord (.andi ra rb imm), _, rfl, writesReg_advance⟩,
    ⟨decodeWord_encodeWord (.ori ra rb imm), _, rfl, writesReg_advance⟩,
    ⟨decodeWord_encodeWord (.xori ra rb imm), _, rfl, writesReg_advance⟩⟩

/-- Settles O5: eight of the words are the encodings of their instructions; of the others one has an unassigned OP and one a bit in its
reserved field. -/
theorem writtenOutWordsDecode : Obligations.WrittenOutWordsDecode :=
  ⟨decodeWord_encodeWord (.andr 1 2 3), decodeWord_encodeWord (.addsi 1 2 0xFFFF#16),
    decodeWord_encodeWord (.shrli 1 2 0x000F#16), decodeWord_encodeWord (.bne 1 2 0xFFFE#16),
    decodeWord_encodeWord (.call 31), decodeWord_encodeWord (.stw 1 2 0x0004#16), decodeWord_encodeWord .trap,
    decodeWord_encodeWord (.wrcr 1 4), decodeWord_of_unassigned (by decide), by decide⟩

end Sys2Proof.Machine
end

section
/-! SUPPORT. The statement about the logic instructions on three registers (spec/40_logical.md), settled. -/

namespace Sys2Proof.Machine

/-- Settles O13: each of the three words decodes to its instruction, which writes one register and goes on. -/
theorem logicRegisterInstructions : Obligations.LogicRegisterInstructions := by
  intro ra rb rc s
  refine ⟨⟨?_, _, rfl, writesReg_advance⟩, ⟨?_, _, rfl, writesReg_advance⟩, ⟨?_, _, rfl, writesReg_advance⟩⟩
  · exact decodeWord_encodeWord (.andr ra rb rc)
  · exact decodeWord_encodeWord (.orr ra rb rc)
  · exact decodeWord_encodeWord (.xorr ra rb rc)

end Sys2Proof.Machine
end

section
/-!
SUPPORT. What the statements about arithmetic (spec/41_arithmetic.md) need: the two sign tests on signed values, that they find just
the sums and differences that do not fit in 32 bits (R141), and the two outcomes of a signed instruction.
-/

namespace Sys2Proof.Machine

variable {s : State} {a b v : Word} {r : Reg}

/-! ### The sign tests (R141) -/

theorem isNegative_iff : isNegative v = true ↔ v.toInt < 0 := by
  simp [isNegative, BitVec.msb_eq_toInt]

theorem isNegative_eq_false : isNegative v = false ↔ 0 ≤ v.toInt := by
  simp [isNegative, BitVec.msb_eq_toInt]

theorem addOverflows_iff :
    addOverflows a b = true ↔
      (0 ≤ a.toInt ∧ 0 ≤ b.toInt ∧ (a + b).toInt < 0) ∨ (a.toInt < 0 ∧ b.toInt < 0 ∧ 0 ≤ (a + b).toInt) := by
  simp [addOverflows, isNegative_iff, isNegative_eq_false, and_assoc]

theorem subOverflows_iff :
    subOverflows a b = true ↔
      (0 ≤ a.toInt ∧ b.toInt < 0 ∧ (a - b).toInt < 0) ∨ (a.toInt < 0 ∧ 0 ≤ b.toInt ∧ 0 ≤ (a - b).toInt) := by
  simp [subOverflows, isNegative_iff, isNegative_eq_false, and_assoc]

/-- The sign tests of the addition are the library's signed overflow, which speaks of the exact sum. -/
theorem addOverflows_eq_saddOverflow (a b : Word) : addOverflows a b = a.saddOverflow b := by
  rw [BitVec.saddOverflow_eq, addOverflows]
  unfold isNegative
  cases a.msb <;> cases b.msb <;> simp

theorem subOverflows_eq_ssubOverflow (a b : Word) : subOverflows a b = a.ssubOverflow b :=
  (BitVec.ssubOverflow_eq a b).symm

/-! ### Exact results (R140, R141) -/

/-- An integer that a signed word can hold. -/
def fitsSigned (n : Int) : Prop := -2147483648 ≤ n ∧ n ≤ 2147483647

theorem addOverflows_iff_not_fits : addOverflows a b = true ↔ ¬ fitsSigned (a.toInt + b.toInt) := by
  rw [addOverflows_eq_saddOverflow]
  simp only [BitVec.saddOverflow, fitsSigned, Bool.or_eq_true, decide_eq_true_eq]
  omega

theorem subOverflows_iff_not_fits : subOverflows a b = true ↔ ¬ fitsSigned (a.toInt - b.toInt) := by
  rw [subOverflows_eq_ssubOverflow]
  simp only [BitVec.ssubOverflow, fitsSigned, Bool.or_eq_true, decide_eq_true_eq]
  omega

theorem toInt_add_of_fits (h : fitsSigned (a.toInt + b.toInt)) : (a + b).toInt = a.toInt + b.toInt := by
  apply BitVec.toInt_add_of_not_saddOverflow
  rw [← addOverflows_eq_saddOverflow, addOverflows_iff_not_fits]
  exact not_not_intro h

theorem toInt_sub_of_fits (h : fitsSigned (a.toInt - b.toInt)) : (a - b).toInt = a.toInt - b.toInt := by
  apply BitVec.toInt_sub_of_not_ssubOverflow
  rw [← subOverflows_eq_ssubOverflow, subOverflows_iff_not_fits]
  exact not_not_intro h

theorem toInt_sextImm (imm : Imm) : (sextImm imm).toInt = imm.toInt :=
  BitVec.toInt_signExtend_of_le (by decide)

/-! ### The two outcomes of a signed instruction -/

/-- A signed instruction takes the exception just when its test holds, and else writes its one register. -/
theorem overflowOrWrite_outcome {o : Bool} {test : Prop} (h : o = true ↔ test) :
    (test → overflowOrWrite o s r v = .next (enterException .arithmeticOverflow s)) ∧
    (¬ test → ∃ t, overflowOrWrite o s r v = .next t ∧ writesReg s t r v) := by
  refine ⟨fun ht => ?_, fun hf => ?_⟩
  · exact overflowOrWrite_next.2 (.inl ⟨h.2 ht, rfl⟩)
  · have ho : o = false := Bool.eq_false_iff.2 (mt h.1 hf)
    exact ⟨_, overflowOrWrite_next.2 (.inr ⟨ho, rfl⟩), writesReg_advance⟩

/-- A signed instruction that tests whether the integer `n` fits, and whose word is then `n`, computes `n` exactly or traps. -/
theorem overflowOrWrite_exact {o : Bool} {n : Int} (ho : o = true ↔ ¬ fitsSigned n) (hv : fitsSigned n → v.toInt = n) :
    (fitsSigned n → ∃ t, overflowOrWrite o s r v = .next t ∧ (readReg t r).toInt = n ∧ onlyRegs [r] s t) ∧
    (¬ fitsSigned n → ∃ t, overflowOrWrite o s r v = .next t ∧ entered 3#3 s t) := by
  obtain ⟨htrap, hwrite⟩ := overflowOrWrite_outcome (s := s) (r := r) (v := v) ho
  refine ⟨fun hfits => ?_, fun hn => ⟨_, htrap hn, entered_enterException s _⟩⟩
  obtain ⟨t, ht, hreg, hframe⟩ := hwrite (not_not_intro hfits)
  exact ⟨t, ht, by rw [hreg, hv hfits], hframe⟩

end Sys2Proof.Machine
end

section
/-! SUPPORT. The statements about arithmetic (spec/41_arithmetic.md), settled. -/

namespace Sys2Proof.Machine

/-- Settles O15: each of the three writes one register and goes on, whatever the operands. -/
theorem unsignedArithmeticInstructions : Obligations.UnsignedArithmeticInstructions := by
  intro ra rb rc imm s
  refine ⟨⟨?_, _, rfl, writesReg_advance⟩, ⟨?_, _, rfl, writesReg_advance⟩, ⟨?_, _, rfl, writesReg_advance⟩⟩
  · exact decodeWord_encodeWord (.addur ra rb rc)
  · exact decodeWord_encodeWord (.addui ra rb imm)
  · exact decodeWord_encodeWord (.subur ra rb rc)

/-- Settles O16: the model's overflow conditions are the two sign tests of the pseudocode, and decide between the outcomes. -/
theorem signedArithmeticInstructions : Obligations.SignedArithmeticInstructions := by
  intro ra rb rc imm s
  refine ⟨⟨?_, overflowOrWrite_outcome addOverflows_iff⟩, ⟨?_, overflowOrWrite_outcome addOverflows_iff⟩,
    ⟨?_, overflowOrWrite_outcome subOverflows_iff⟩⟩
  · exact decodeWord_encodeWord (.addsr ra rb rc)
  · exact decodeWord_encodeWord (.addsi ra rb imm)
  · exact decodeWord_encodeWord (.subsr ra rb rc)

/-- Settles O17: the sign tests find just the exact results that do not fit, and a result that fits is not wrapped. -/
theorem signedResultIsExactOrTraps : Obligations.SignedResultIsExactOrTraps := by
  intro ra rb rc imm s
  rw [← toInt_sextImm imm]
  exact ⟨overflowOrWrite_exact addOverflows_iff_not_fits toInt_add_of_fits,
    overflowOrWrite_exact addOverflows_iff_not_fits toInt_add_of_fits,
    overflowOrWrite_exact subOverflows_iff_not_fits toInt_sub_of_fits⟩

end Sys2Proof.Machine
end

section
/-! SUPPORT. The shift amounts as remainders (R112, R150), and the statement about the shifts (spec/42_shift.md), settled. -/

namespace Sys2Proof.Machine

theorem shiftAmountReg_eq_mod (v : Word) : shiftAmountReg v = v.toNat % 32 := by
  simp [shiftAmountReg]

theorem shiftAmountImm_eq_mod (imm : Imm) : shiftAmountImm imm = imm.toNat % 32 := by
  simp [shiftAmountImm]

/-- Settles O18: the low five bits of an amount are its remainder modulo 32; each of the four writes one register and goes on. -/
theorem shiftInstructions : Obligations.ShiftInstructions := by
  intro ra rb rc imm s
  rw [← shiftAmountReg_eq_mod, ← shiftAmountImm_eq_mod]
  refine ⟨⟨?_, _, rfl, writesReg_advance⟩, ⟨?_, _, rfl, writesReg_advance⟩, ⟨?_, _, rfl, writesReg_advance⟩,
    ⟨?_, _, rfl, writesReg_advance⟩⟩
  · exact decodeWord_encodeWord (.shrlr ra rb rc)
  · exact decodeWord_encodeWord (.shrli ra rb imm)
  · exact decodeWord_encodeWord (.shllr ra rb rc)
  · exact decodeWord_encodeWord (.shlli ra rb imm)

end Sys2Proof.Machine
end

section
/-!
SUPPORT. What the statements about the branches (spec/43_branch.md) need: the byte address of a branch target, the one operation
behind the six branch instructions, and the outcome of a conditional branch.
-/

namespace Sys2Proof.Machine

variable {s t : State}

/-! ### The target in bytes (R161) -/

theorem byteAddr_add (g k : WordAddr) : byteAddr (g + k) = byteAddr g + byteAddr k := by
  apply BitVec.eq_of_toNat_eq
  simp only [byteAddr_toNat, BitVec.toNat_add]
  omega

theorem byteAddr_signExtend (imm : Imm) : byteAddr (imm.signExtend 30) = sextImm imm <<< 2 := by
  apply BitVec.eq_of_getLsbD_eq
  intro i hi
  simp only [byteAddr, sextImm, BitVec.getLsbD_append, BitVec.getLsbD_shiftLeft, BitVec.getLsbD_signExtend]
  by_cases h2 : i < 2
  · simp [h2]
  · simp [h2, hi, show i - 2 < 30 by omega, show i - 2 < 32 by omega]

/-- The displacement counts words from the next instruction, so it is shifted by 2 in the byte address. -/
theorem byteAddr_branchTarget {pc : Word} (h4 : pc.toNat % 4 = 0) (imm : Imm) :
    byteAddr (branchTarget pc imm) = pc + 4#32 + sextImm imm <<< 2 := by
  have hone : byteAddr 1#30 = 4#32 := by decide
  rw [branchTarget, byteAddr_add, byteAddr_add, byteAddr_wordAddr h4, hone, byteAddr_signExtend]

/-! ### The six branch instructions (R160, R166 to R168) -/

/-- Every branch instruction is `branch` from a state, `s` or `s` with the link written, whose flow of control is that of `s`. -/
theorem exec_of_isBranch {i : Instr} (h : i.isBranch = true) (s : State) :
    ∃ u target, exec i s = branch u target ∧ u.pc = s.pc ∧ u.pending = s.pending := by
  cases i with
  | be ra rb imm => exact ⟨s, _, rfl, rfl, rfl⟩
  | bne ra rb imm => exact ⟨s, _, rfl, rfl, rfl⟩
  | bsgt ra rb imm => exact ⟨s, _, rfl, rfl, rfl⟩
  | bugt ra rb imm => exact ⟨s, _, rfl, rfl, rfl⟩
  | jmp ra => exact ⟨s, _, rfl, rfl, rfl⟩
  | call ra => exact ⟨writeReg s 31 (callLink s.pc), _, rfl, rfl, rfl⟩
  | _ => cases h

/-- The slot of a branch instruction stands at the next word. -/
theorem exec_branch_pc {i : Instr} (hi : i.isBranch = true) (h : exec i s = .next t) : t.pc = s.pc + 4#32 := by
  obtain ⟨u, target, hexec, hpc, -⟩ := exec_of_isBranch hi s
  obtain ⟨-, rfl⟩ := branch_next.1 (hexec.symm.trans h)
  rw [enterSlot_pc, hpc]

/-- Entering a delay slot after a register write is that write and nothing else but the flow of control, as `advance` is. -/
theorem writesReg_enterSlot {r : Reg} {v : Word} {g : Option WordAddr} : writesReg s (enterSlot (writeReg s r v) g) r v :=
  writesReg_advance (s := s)

theorem callLinkOffset_eq_four_or_eight : Config.callLinkOffset = 4#32 ∨ Config.callLinkOffset = 8#32 := by
  unfold Config.callLinkOffset
  split
  · exact .inr rfl
  · exact .inl rfl

/-! ### The outcome of a conditional branch (R161) -/

theorem branchIf_outcome {c : Bool} {taken : Prop} (imm : Imm) (hc : c = true ↔ taken) (hp : s.pending = .none)
    (h4 : s.pc.toNat % 4 = 0) :
    ∃ t, branchIf c imm s = .next t ∧ onlyRegs [] s t ∧ t.pc = s.pc + 4#32 ∧
      (taken → ∃ g, t.pending = .slot (some g) ∧ byteAddr g = s.pc + 4#32 + sextImm imm <<< 2) ∧
      (¬ taken → t.pending = .slot none) := by
  refine ⟨_, branch_next.2 ⟨hp, rfl⟩, onlyRegs_enterSlot, rfl, fun ht => ?_, fun hf => ?_⟩
  · exact ⟨branchTarget s.pc imm, by simp [hc.2 ht], byteAddr_branchTarget h4 imm⟩
  · simp [mt hc.1 hf]

end Sys2Proof.Machine
end

section
/-! SUPPORT. The statements about the branches (spec/43_branch.md), settled. -/

namespace Sys2Proof.Machine

/-- Settles O19: each of the four tests is its condition, and decides between the outcomes of a conditional branch. -/
theorem conditionalBranches : Obligations.ConditionalBranches := by
  intro ra rb imm s hp h4
  refine ⟨?_, ?_, ?_, ?_⟩
  · exact branchIf_outcome imm beq_iff_eq hp h4
  · exact branchIf_outcome imm bne_iff_ne hp h4
  · exact branchIf_outcome imm BitVec.slt_iff_toInt_lt hp h4
  · exact branchIf_outcome imm BitVec.ult_iff_toNat_lt hp h4

/-- Settles O20: both enter the slot with the register's word address; CALL does so after the write of the link. -/
theorem registerJumps : Obligations.RegisterJumps := by
  intro ra s hp
  refine ⟨⟨_, branch_next.2 ⟨hp, rfl⟩, onlyRegs_enterSlot, rfl, rfl⟩, ?_⟩
  obtain ⟨hlink, hframe⟩ : writesReg s _ 31 (callLink s.pc) :=
    writesReg_enterSlot (g := some (jumpTarget (readReg s ra)))
  exact ⟨_, branch_next.2 ⟨hp, rfl⟩, hframe, rfl, rfl, hlink, callLinkOffset_eq_four_or_eight⟩

/-- Settles O21: all six are `branch`, which refuses while a branch is pending. -/
theorem branchInDelaySlotIsRefused : Obligations.BranchInDelaySlotIsRefused := by
  intro i s hi hp
  obtain ⟨u, target, hexec, -, hpending⟩ := exec_of_isBranch hi s
  exact hexec.trans (branch_refused (hpending ▸ hp))

/-- Settles O22: the branch leaves the program counter at its slot, from where the next instruction moves on by R160. -/
theorem slotExecutesThenTarget : Obligations.SlotExecutesThenTarget := by
  intro i j s u v target hi hj hexrt hbranch htarget hslot hnoException
  have hpc : u.pc = s.pc + 4#32 := exec_branch_pc hi hbranch
  rcases otherInstructionsMoveOn j u v hj hexrt hslot with ⟨hpending, htaken, hnext⟩ | ⟨c, -, hv⟩
  · refine ⟨hpc, hpending, fun g hg => htaken g (hg ▸ htarget), fun hnone => ?_⟩
    rw [hnext (.inr (hnone ▸ htarget)), hpc, BitVec.add_assoc]
    rfl
  · exact absurd hv (hnoException c)

end Sys2Proof.Machine
end

section
/-!
SUPPORT. What the statements about memory access (spec/44_memory_access.md) need: LDW and STW by the answer of the bus, and what the
bus answers at the registers of each device (spec/60_exceptions.md R220 to R245).
-/

namespace Sys2Proof.Machine

variable {s u : State} {a v : Word} {ra rb : Reg} {imm : Imm}

/-! ### LDW and STW that the bus takes (R171, R172) -/

/-- An aligned LDW that the bus answers writes the answer to its register. -/
theorem exec_ldw_of_busRead (ha : effectiveAddress (readReg s ra) imm = a) (h4 : a.toNat % 4 = 0)
    (h : busRead s a = some v) : ∃ t, exec (.ldw ra rb imm) s = .next t ∧ writesReg s t rb v := by
  subst ha
  exact ⟨_, loadWord_next.2 (.inl ⟨(isAligned_iff _).2 h4, v, h, rfl⟩), writesReg_advance⟩

/-- An aligned STW that the bus accepts goes on after the write. -/
theorem exec_stw_of_busWrite (ha : effectiveAddress (readReg s ra) imm = a) (h4 : a.toNat % 4 = 0)
    (h : busWrite s a (readReg s rb) = .ok u) : exec (.stw ra rb imm) s = .next (advance u) := by
  subst ha
  exact storeWord_next.2 (.inl ⟨(isAligned_iff _).2 h4, u, h, rfl⟩)

/-- An aligned STW whose bus write touches only the devices and the record of stored words does that and goes on. -/
theorem exec_stw_device {timer : Timer} {uart : Uart} {gpio : Gpio} (ha : effectiveAddress (readReg s ra) imm = a)
    (h4 : a.toNat % 4 = 0)
    (h : busWrite s a (readReg s rb) =
      .ok { s with timer := timer, uart := uart, gpio := gpio, stored := noteStored s.stored a.toNat }) :
    ∃ t, exec (.stw ra rb imm) s = .next t ∧ t.timer = timer ∧ t.uart = uart ∧ t.gpio = gpio ∧ t.env = s.env ∧
      sameRegsBut [] s t ∧ sameControl s t ∧ (∀ x, readByte t.mem x = readByte s.mem x) ∧
      (∀ x, x ∈ t.stored ↔ x = (effectiveAddress (readReg s ra) imm).toNat ∨ x ∈ s.stored) := by
  obtain ⟨-, -, hregs, hcontrol⟩ := busWrite_keeps_cpu h
  refine ⟨_, exec_stw_of_busWrite ha h4 h, rfl, rfl, rfl, rfl, hregs, hcontrol, fun _ => rfl, fun x => ?_⟩
  rw [ha]
  exact mem_insertAddr

/-! ### The bus at the device registers (R222 to R225, R232 to R235, R242 to R245) -/

theorem busRead_timer {r : TimerReg} (h : locate a = .timer r) : busRead s a = some (timerRead s.timer r) := by
  simp only [busRead, h]

theorem busRead_uart {r : UartReg} (h : locate a = .uart r) : busRead s a = some (uartRead s.uart r) := by
  simp only [busRead, h]

theorem busRead_gpio {r : GpioReg} (h : locate a = .gpio r) : busRead s a = some (gpioRead s.gpio r) := by
  simp only [busRead, h]

theorem gpioRead_input (g : Gpio) : gpioRead g .input = 0#28 ++ g.inPins := by
  simp [gpioRead, BitVec.setWidth_eq_append]

theorem busWrite_timer {r : TimerReg} (h : locate a = .timer r) :
    busWrite s a v = .ok { s with timer := timerWrite s.timer r v, stored := noteStored s.stored a.toNat } := by
  simp only [busWrite, h]

theorem busWrite_uart {r : UartReg} {d : Uart} (h : locate a = .uart r) (hd : uartWrite s.uart r v = .ok d) :
    busWrite s a v = .ok { s with uart := d, stored := noteStored s.stored a.toNat } := by
  simp only [busWrite, h, hd]

theorem busWrite_gpio {r : GpioReg} {d : Gpio} (h : locate a = .gpio r) (hd : gpioWrite s.gpio r v = .ok d) :
    busWrite s a v = .ok { s with gpio := d, stored := noteStored s.stored a.toNat } := by
  simp only [busWrite, h, hd]

theorem uartWrite_data_idle {d : Uart} (h : d.tx = none) :
    uartWrite d .data v = .ok { d with tx := some (v.extractLsb' 0 8) } := by
  simp [uartWrite, h]

end Sys2Proof.Machine
end

section
/-! SUPPORT. The statements about memory access (spec/44_memory_access.md), settled. -/

namespace Sys2Proof.Machine

/-- Settles O25: the bus answers an address of ROM or SPM with the word there. -/
theorem loadFromMemory : Obligations.LoadFromMemory :=
  fun _ _ _ _ h4 hm => exec_ldw_of_busRead rfl h4 (busRead_mem hm)

/-- Settles O26, register by register: the bus answers the address with the device's read of that register. -/
theorem loadFromDevice : Obligations.LoadFromDevice := by
  intro ra rb imm s a v hmem ha
  simp only [List.mem_cons, List.not_mem_nil, or_false, Prod.mk.injEq] at hmem
  rcases hmem with ⟨rfl, rfl⟩ | ⟨rfl, rfl⟩ | ⟨rfl, rfl⟩ | ⟨rfl, rfl⟩ | ⟨rfl, rfl⟩ | ⟨rfl, rfl⟩ | ⟨rfl, rfl⟩ |
    ⟨rfl, rfl⟩ | ⟨rfl, rfl⟩ | ⟨rfl, rfl⟩
  · exact exec_ldw_of_busRead ha (by decide) (busRead_timer (r := .control) rfl)
  · exact exec_ldw_of_busRead ha (by decide) (busRead_timer (r := .interrupt) rfl)
  · exact exec_ldw_of_busRead ha (by decide) (busRead_timer (r := .expiration) rfl)
  · exact exec_ldw_of_busRead ha (by decide) (busRead_timer (r := .counter) rfl)
  · exact exec_ldw_of_busRead ha (by decide) (busRead_uart (r := .status) rfl)
  · exact exec_ldw_of_busRead ha (by decide) (busRead_uart (r := .data) rfl)
  · rw [← gpioRead_input]
    exact exec_ldw_of_busRead ha (by decide) (busRead_gpio rfl)
  · exact exec_ldw_of_busRead ha (by decide) (busRead_gpio (r := .output) rfl)
  · exact exec_ldw_of_busRead ha (by decide) (busRead_gpio (r := .inout) rfl)
  · exact exec_ldw_of_busRead ha (by decide) (busRead_gpio (r := .direction) rfl)

/-- Settles O28: the bus writes the word at the address and notes it, which leaves every other byte and the CPU alone. -/
theorem storeToScratchPad : Obligations.StoreToScratchPad := by
  intro ra rb imm s a h4 hspm
  have hwrite := busWrite_spm (s := s) (v := readReg s rb) hspm
  obtain ⟨-, -, hregs, hcontrol⟩ := busWrite_keeps_cpu hwrite
  exact ⟨_, exec_stw_of_busWrite rfl h4 hwrite, readWord_writeWord_same .., readByte_writeWord_outside _ _ _,
    fun _ => mem_insertAddr, hregs, hcontrol, rfl, rfl, rfl, rfl⟩

/-- Settles O29, register by register: the bus hands the word to the device's write rule. -/
theorem storeToDevice : Obligations.StoreToDevice := by
  intro ra rb imm s a v stores
  refine ⟨fun ha => ?_, fun ha => ?_, fun ha => ?_, fun ha => ?_, fun ha => ?_, fun ha hidle => ?_, fun ha => ?_,
    fun ha => ?_, fun ha => ?_⟩
  · exact exec_stw_device ha (by decide) (busWrite_timer (r := .control) rfl)
  · exact exec_stw_device ha (by decide) (busWrite_timer (r := .interrupt) rfl)
  · exact exec_stw_device ha (by decide) (busWrite_timer (r := .expiration) rfl)
  · exact exec_stw_device ha (by decide) (busWrite_timer (r := .counter) rfl)
  · exact exec_stw_device ha (by decide) (busWrite_uart (r := .status) rfl rfl)
  · exact exec_stw_device ha (by decide) (busWrite_uart rfl (uartWrite_data_idle hidle))
  · exact exec_stw_device ha (by decide) (busWrite_gpio (r := .output) rfl rfl)
  · exact exec_stw_device ha (by decide) (busWrite_gpio (r := .inout) rfl rfl)
  · exact exec_stw_device ha (by decide) (busWrite_gpio (r := .direction) rfl rfl)

end Sys2Proof.Machine
end

section
/-! SUPPORT. The statement about TRAP (spec/45_trap.md), settled. -/

namespace Sys2Proof.Machine

/-- TRAP raises its exception and does nothing else (R180). -/
theorem exec_trap (s : State) : exec .trap s = .next (enterException .trap s) := raise_eq .trap s

/-- Settles O33: TRAP is the exception entry, and the code of its cause is 5. -/
theorem trapTakesException : Obligations.TrapTakesException :=
  fun s => ⟨_, exec_trap s, entered_enterException s .trap⟩

end Sys2Proof.Machine
end

section
/-!
SUPPORT. What the statements about the privileged instructions (spec/46_privileged.md) need: RDCR and WRCR in kernel mode by what the
control register space answers, a control register read after it was written, and the two modes compared.
-/

namespace Sys2Proof.Machine

variable {s t u : State} {m : Mode}

/-! ### RDCR, WRCR and EXRT in kernel mode (R187 to R189) -/

/-- RDCR of a control register that reads `v` writes `v` to its general register. -/
theorem exec_rdcr_of_readControl {n : CtrlNum} {r : Reg} {v : Word} (hk : s.status.em = .kernel)
    (h : readControl s n = .ok v) : ∃ t, exec (.rdcr n r) s = .next t ∧ writesReg s t r v := by
  refine ⟨advance (writeReg s r v), ?_, writesReg_advance⟩
  simp only [exec, execRdcr, inKernelMode_kernel hk, h, writeAndAdvance]

/-- WRCR completes just when the control register space accepts the write, and then goes on. -/
theorem exec_wrcr_kernel_next {n : CtrlNum} {r : Reg} (hk : s.status.em = .kernel) :
    exec (.wrcr r n) s = .next t ↔ ∃ u, writeControl s n (readReg s r) = .ok u ∧ t = advance u := by
  simp only [exec, execWrcr, inKernelMode_kernel hk]
  cases writeControl s n (readReg s r) <;> simp [eq_comm]

theorem exec_exrt_kernel (hk : s.status.em = .kernel) : exec .exrt s = .next (returnFromException s) :=
  inKernelMode_kernel hk

/-- Outside the control registers an accepted WRCR changes only the flow of control. -/
theorem writeControl_frame {n : CtrlNum} {v : Word} (h : writeControl s n v = .ok u) :
    sameRegsBut [] s (advance u) ∧ sameMemory s (advance u) ∧ sameDevices s (advance u) := by
  rcases writeControl_ok h with ⟨-, rfl⟩ | ⟨-, rfl⟩ | ⟨-, rfl⟩ | ⟨-, rfl⟩ | ⟨-, rfl⟩ | ⟨-, rfl⟩ <;>
    exact ⟨fun _ _ => rfl, ⟨fun _ => rfl, rfl⟩, rfl, rfl, rfl, rfl⟩

/-- An accepted WRCR leaves the control registers that the write gives, and nothing else is changed but the flow of control. -/
theorem exec_wrcr_of_writeControl {n : CtrlNum} {r : Reg} (hk : s.status.em = .kernel)
    (h : writeControl s n (readReg s r) = .ok u) :
    ∃ t, exec (.wrcr r n) s = .next t ∧ t.status = u.status ∧ t.prevStatus = u.prevStatus ∧ t.epc = u.epc ∧
      t.expVec = u.expVec ∧ t.excCode = u.excCode ∧ t.intMask = u.intMask ∧
      sameRegsBut [] s t ∧ sameMemory s t ∧ sameDevices s t :=
  ⟨_, (exec_wrcr_kernel_next hk).2 ⟨u, h, rfl⟩, rfl, rfl, rfl, rfl, rfl, rfl, writeControl_frame h⟩

/-! ### Status as a word (R28, R29) -/

theorem Mode.bit_eq (m : Mode) : m.bit = (m == .user) := by
  cases m <;> rfl

theorem statusWord_kernel {st : Status} (h : st.em = .kernel) : statusWord st = 0#30 ++ BitVec.ofBool st.ie ++ 0#1 := by
  rw [statusWord, h]
  rfl

/-! ### A written word read back (R40): the bits of the writable fields stay, the others read 0 -/

theorem and_lowMask {k n : Nat} (v : BitVec (k + n)) :
    v &&& (0#k ++ BitVec.allOnes n) = 0#k ++ v.extractLsb' 0 n := by
  conv_lhs => rw [← BitVec.extractLsb'_append_extractLsb' (x := v), BitVec.and_append]
  rw [BitVec.and_zero, BitVec.and_allOnes]

theorem and_highMask {k n : Nat} (v : BitVec (k + n)) :
    v &&& (BitVec.allOnes k ++ 0#n) = v.extractLsb' n k ++ 0#n := by
  conv_lhs => rw [← BitVec.extractLsb'_append_extractLsb' (x := v), BitVec.and_append]
  rw [BitVec.and_zero, BitVec.and_allOnes]

theorem ofBool_getLsbD (v : Word) (i : Nat) : BitVec.ofBool (v.getLsbD i) = v.extractLsb' i 1 := by
  ext j hj
  simp [show j = 0 by omega]

theorem bit_modeOfBit (b : Bool) : (modeOfBit b).bit = b := by
  cases b <;> rfl

theorem statusWord_statusOfWord (v : Word) : statusWord (statusOfWord v) = v &&& 0x00000003#32 := by
  calc statusWord (statusOfWord v)
      = 0#30 ++ v.extractLsb' 1 1 ++ v.extractLsb' 0 1 := by
        simp only [statusWord, statusOfWord, bit_modeOfBit, ofBool_getLsbD]
    _ = 0#30 ++ (v.extractLsb' 1 1 ++ v.extractLsb' 0 1) := BitVec.append_assoc
    _ = 0#30 ++ v.extractLsb' 0 2 := by rw [join_fields v (lo := 0) (n := 1) rfl]
    _ = v &&& 0x00000003#32 := (and_lowMask (k := 30) (n := 2) v).symm

theorem excCodeWord_excCodeOfWord (v : Word) : excCodeWord (excCodeOfWord v) = v &&& 0x0000000F#32 := by
  calc excCodeWord (excCodeOfWord v)
      = 0#28 ++ v.extractLsb' 3 1 ++ v.extractLsb' 0 3 := by
        simp only [excCodeWord, excCodeOfWord, ofBool_getLsbD]
    _ = 0#28 ++ (v.extractLsb' 3 1 ++ v.extractLsb' 0 3) := BitVec.append_assoc
    _ = 0#28 ++ v.extractLsb' 0 4 := by rw [join_fields v (lo := 0) (n := 3) rfl]
    _ = v &&& 0x0000000F#32 := (and_lowMask (k := 28) (n := 4) v).symm

theorem byteAddr_wordAddr_eq_and (v : Word) : byteAddr (wordAddr v) = v &&& 0xFFFFFFFC#32 :=
  (and_highMask (k := 30) (n := 2) v).symm

theorem lowByte_eq_and (v : Word) : 0#24 ++ v.extractLsb' 0 8 = v &&& 0x000000FF#32 :=
  (and_lowMask (k := 24) (n := 8) v).symm

/-- A writable control register with the mask of its writable bits, read after a write of `v`, is `v` under the mask. -/
theorem readControl_writeControl {n : CtrlNum} {mask v : Word}
    (hmask : (n, mask) ∈ [((0x00 : CtrlNum), 0x00000003#32), (0x01, 0x00000003#32), (0x03, 0xFFFFFFFC#32),
      (0x04, 0xFFFFFFFC#32), (0x05, 0x0000000F#32), (0x06, 0x000000FF#32)])
    (h : writeControl s n v = .ok u) : readControl (advance u) n = .ok (v &&& mask) := by
  simp only [List.mem_cons, List.not_mem_nil, or_false, Prod.mk.injEq] at hmask
  rcases hmask with ⟨rfl, rfl⟩ | ⟨rfl, rfl⟩ | ⟨rfl, rfl⟩ | ⟨rfl, rfl⟩ | ⟨rfl, rfl⟩ | ⟨rfl, rfl⟩ <;> cases h
  · exact congrArg Except.ok (statusWord_statusOfWord v)
  · exact congrArg Except.ok (statusWord_statusOfWord v)
  · exact congrArg Except.ok (byteAddr_wordAddr_eq_and v)
  · exact congrArg Except.ok (byteAddr_wordAddr_eq_and v)
  · exact congrArg Except.ok (excCodeWord_excCodeOfWord v)
  · exact congrArg Except.ok (lowByte_eq_and v)

/-! ### The two modes compared (R185, R186) -/

theorem exec_privileged_user {i : Instr} (hi : i.isPrivileged = true) (hu : s.status.em = .user) :
    exec i s = .next (enterException .privilegeViolation s) := by
  cases i with
  | rdcr | wrcr | exrt => exact inKernelMode_user hu
  | _ => cases hi

/-- Two results of one kind: the same stop, or next states that agree on everything but Status and Previous Status. -/
inductive AgreeButStatus : Result → Result → Prop where
  | next {t u : State} (h : sameButStatus t u) : AgreeButStatus (.next t) (.next u)
  | fault (f : Fault) : AgreeButStatus (.fault f) (.fault f)
  | refused (e : Refusal) : AgreeButStatus (.refused e) (.refused e)

/-- What agreeing results say of each kind of outcome. -/
theorem AgreeButStatus.outcomes {p q : Result} (h : AgreeButStatus p q) :
    (∀ t, p = .next t → ∃ u, q = .next u ∧ sameButStatus t u) ∧
    (∀ f, p = .fault f → q = .fault f) ∧ (∀ e, p = .refused e → q = .refused e) := by
  refine ⟨?_, ?_, ?_⟩
  · rintro t rfl
    cases h with
    | next h => exact ⟨_, rfl, h⟩
  · rintro f rfl
    cases h
    rfl
  · rintro e rfl
    cases h
    rfl

theorem raise_withMode (c : Cause) : AgreeButStatus (raise c s) (raise c (withMode m s)) := .next rfl

theorem writeAndAdvance_withMode {r : Reg} {v : Word} :
    AgreeButStatus (writeAndAdvance s r v) (writeAndAdvance (withMode m s) r v) := .next rfl

theorem overflowOrWrite_withMode {o : Bool} {r : Reg} {v : Word} :
    AgreeButStatus (overflowOrWrite o s r v) (overflowOrWrite o (withMode m s) r v) := by
  cases o with
  | true => exact raise_withMode _
  | false => exact writeAndAdvance_withMode

theorem branch_withMode {g : Option WordAddr} : AgreeButStatus (branch s g) (branch (withMode m s) g) := by
  by_cases hp : s.pending = .none
  · rw [branch_next.2 ⟨hp, rfl⟩, branch_next (s := withMode m s) |>.2 ⟨hp, rfl⟩]
    exact .next rfl
  · rw [branch_refused hp, branch_refused (s := withMode m s) hp]
    exact .refused _

/-- The bus does not see the mode: a read answers the same. -/
theorem busRead_withMode (a : Word) : busRead (withMode m s) a = busRead s a := rfl

/-- The bus does not see the mode: a write is accepted or refused alike. -/
theorem busWrite_withMode (a v : Word) : busWrite (withMode m s) a v = (busWrite s a v).map (withMode m) := by
  unfold busWrite
  cases locate a with
  | uart r => cases h : uartWrite s.uart r v <;> simp [withMode, h, Except.map]
  | gpio r => cases h : gpioWrite s.gpio r v <;> simp [withMode, h, Except.map]
  | _ => rfl

theorem loadWord_withMode {a : Word} {r : Reg} : AgreeButStatus (loadWord a r s) (loadWord a r (withMode m s)) := by
  unfold loadWord
  rw [busRead_withMode]
  cases isAligned a with
  | false => exact raise_withMode _
  | true =>
    cases busRead s a with
    | none => exact .fault _
    | some v => exact writeAndAdvance_withMode

theorem storeWord_withMode {a v : Word} : AgreeButStatus (storeWord a v s) (storeWord a v (withMode m s)) := by
  unfold storeWord
  rw [busWrite_withMode]
  cases isAligned a with
  | false => exact raise_withMode _
  | true =>
    cases busWrite s a v with
    | error e => exact .refused e
    | ok u => exact .next rfl

/-- An instruction that is not privileged does the same in both modes. -/
theorem exec_withMode {i : Instr} (hi : i.isPrivileged = false) (s : State) (m : Mode) :
    AgreeButStatus (exec i s) (exec i (withMode m s)) := by
  cases i with
  | andr | andi | orr | ori | xorr | xori | addur | addui | subur | shrlr | shrli | shllr | shlli =>
    exact writeAndAdvance_withMode
  | addsr | addsi | subsr => exact overflowOrWrite_withMode
  | be | bne | bsgt | bugt | jmp => exact branch_withMode
  | call => exact branch_withMode (s := writeReg s 31 (callLink s.pc))
  | ldw => exact loadWord_withMode
  | stw => exact storeWord_withMode
  | trap => exact raise_withMode .trap
  | rdcr | wrcr | exrt => cases hi

theorem fetch_withMode (s : State) (m : Mode) : fetch (withMode m s) = fetch s := rfl

end Sys2Proof.Machine
end

section
/-! SUPPORT. The statements about the privileged instructions (spec/46_privileged.md), settled. -/

namespace Sys2Proof.Machine

/-- Settles O34, register by register: RDCR writes what the control register space reads at the number. Only the two Status words
need an argument: EM reads 0 in kernel mode, and 1 just when it is user mode. -/
theorem rdcrReadsControlRegisters : Obligations.RdcrReadsControlRegisters := by
  intro ca rb v s hk hmem
  refine exec_rdcr_of_readControl hk ?_
  simp only [List.mem_cons, List.not_mem_nil, or_false, Prod.mk.injEq] at hmem
  rcases hmem with ⟨rfl, rfl⟩ | ⟨rfl, rfl⟩ | ⟨rfl, rfl⟩ | ⟨rfl, rfl⟩ | ⟨rfl, rfl⟩ | ⟨rfl, rfl⟩ | ⟨rfl, rfl⟩ |
    ⟨rfl, rfl⟩ | ⟨rfl, rfl⟩ | ⟨rfl, rfl⟩ | ⟨rfl, rfl⟩
  · exact congrArg Except.ok (statusWord_kernel hk)
  · rw [← Mode.bit_eq]
    rfl
  all_goals rfl

/-- Settles O35, register by register: WRCR goes on after the write that the control register space accepts. -/
theorem wrcrWritesControlRegisters : Obligations.WrcrWritesControlRegisters := by
  intro ra s hk v st writes
  refine ⟨?_, ?_, ?_, ?_, ?_, ?_⟩
  · exact exec_wrcr_of_writeControl (u := { s with status := st }) hk rfl
  · exact exec_wrcr_of_writeControl (u := { s with prevStatus := st }) hk rfl
  · exact exec_wrcr_of_writeControl (u := { s with epc := wordAddr v }) hk rfl
  · exact exec_wrcr_of_writeControl (u := { s with expVec := wordAddr v }) hk rfl
  · exact exec_wrcr_of_writeControl (u := { s with excCode := excCodeOfWord v }) hk rfl
  · exact exec_wrcr_of_writeControl (u := { s with intMask := v.extractLsb' 0 8 }) hk rfl

/-- Settles O36: the WRCR completed, so the control register space accepted the write, and the RDCR reads it back. -/
theorem rdcrAfterWrcrReadsNewValue : Obligations.RdcrAfterWrcrReadsNewValue := by
  intro ra rb n mask s t hmask hk hwrcr hkt
  obtain ⟨u, hu, rfl⟩ := (exec_wrcr_kernel_next hk).1 hwrcr
  obtain ⟨w, hrdcr, hread, -⟩ := exec_rdcr_of_readControl (r := rb) hkt (readControl_writeControl hmask hu)
  exact ⟨w, hrdcr, hread⟩

/-- Settles O38: the mode test opens the three privileged instructions, and nothing that the others call looks at the mode. -/
theorem modeMattersToPrivilegedInstructionsOnly : Obligations.ModeMattersToPrivilegedInstructionsOnly :=
  ⟨fun _ _ hi hu => exec_privileged_user hi hu, fun _ s m hi => (exec_withMode hi s m).outcomes, fetch_withMode⟩

/-- Settles O39: in kernel mode EXRT is `returnFromException`. -/
theorem exrtReturns : Obligations.ExrtReturns := fun _ hk =>
  ⟨_, exec_exrt_kernel hk, rfl, rfl, rfl, rfl, rfl, rfl, rfl, rfl, fun _ _ => rfl, ⟨fun _ => rfl, rfl⟩, rfl, rfl, rfl, rfl⟩

end Sys2Proof.Machine
end

section
/-!
SUPPORT. What the statements about exceptions and interrupts (spec/60_exceptions.md) need: what an instruction may do to the control
registers, an exception entry after device steps, and the CPU step by the interrupt condition of R207.
-/

namespace Sys2Proof.Machine

variable {s t u : State} {irq : BitVec 8}

/-! ### The control registers (R201, R212, R218) -/

/-- To the control registers an instruction does one of four things: nothing; in kernel mode the write of a WRCR, or the return of
EXRT; or the exception entry that its rule names. -/
theorem exec_control_cases {i : Instr} (h : exec i s = .next t) :
    sameControl s t ∨
    (∃ ra cb u, i = .wrcr ra cb ∧ s.status.em = .kernel ∧ writeControl s cb (readReg s ra) = .ok u ∧ t = advance u) ∨
    (i = .exrt ∧ s.status.em = .kernel ∧ t = returnFromException s) ∨
    (∃ c, raises i = some c ∧ t = enterException c s) := by
  rcases exec_next_cases h with ⟨-, r, v, rfl⟩ | ⟨-, -, g, rfl⟩ | ⟨-, -, g, rfl⟩ | ⟨ra, rb, imm, u, -, -, hu, rfl⟩ | hrest
  · exact .inl ⟨rfl, rfl, rfl, rfl, rfl, rfl⟩
  · exact .inl ⟨rfl, rfl, rfl, rfl, rfl, rfl⟩
  · exact .inl ⟨rfl, rfl, rfl, rfl, rfl, rfl⟩
  · obtain ⟨-, -, -, hcontrol⟩ := busWrite_keeps_cpu hu
    exact .inl hcontrol
  · exact .inr hrest

/-- An accepted WRCR writes Status or leaves it. -/
theorem writeControl_status {n : CtrlNum} {v : Word} (h : writeControl s n v = .ok u) :
    (n = 0x00 ∧ u.status = statusOfWord v) ∨ u.status = s.status := by
  rcases writeControl_ok h with ⟨hn, rfl⟩ | ⟨-, rfl⟩ | ⟨-, rfl⟩ | ⟨-, rfl⟩ | ⟨-, rfl⟩ | ⟨-, rfl⟩
  · exact .inl ⟨Fin.ext hn, rfl⟩
  all_goals exact .inr rfl

theorem modeOfBit_eq_user {b : Bool} : modeOfBit b = .user ↔ b = true := by
  cases b <;> simp [modeOfBit]

/-- The device steps before an exception entry touch nothing that the entry saves or keeps of the CPU and of memory, whatever the
model's own counters are. -/
theorem enterException_after_deviceSteps (c : Cause) (k : Env) (s : State) :
    let t := enterException c { deviceSteps s with env := k }
    t.status = { ie := false, em := .kernel } ∧ t.prevStatus = s.status ∧ t.pc = s.expVec ++ 0#2 ∧ t.pending = .none ∧
      (s.pc.toNat % 4 = 0 → t.epc ++ 0#2 = s.pc) ∧ sameRegsBut [] s t ∧ sameMemory s t :=
  ⟨rfl, rfl, rfl, rfl, fun h4 => byteAddr_wordAddr h4, fun _ _ => rfl, fun _ => rfl, rfl⟩

/-! ### The acceptance of an interrupt (R205, R207) -/

theorem interruptible_iff : interruptible irq s = true ↔ s.status.ie = true ∧ irq &&& ~~~s.intMask ≠ 0#8 := by
  simp [interruptible, deliverable]

/-- The CPU step: the interrupt entry just when the interrupt is enabled, deliverable and has waited, and else the instruction. -/
theorem cpuStep_eq_ite (irq : BitVec 8) (s : State) :
    cpuStep irq s =
      if s.status.ie = true ∧ irq &&& ~~~s.intMask ≠ 0#8 ∧ s.env.irqWait = 0 then
        .next (enterException .externalInterrupt s)
      else fetchAndExecute (noteWait irq s) := by
  have hiff : irqChoice irq s = .take ↔ s.status.ie = true ∧ irq &&& ~~~s.intMask ≠ 0#8 ∧ s.env.irqWait = 0 := by
    rw [irqChoice_take, interruptible_iff, and_assoc]
  by_cases hdue : irqChoice irq s = .take
  · rw [if_pos (hiff.1 hdue), cpuStep, hdue, ← raise_eq]
  · rw [if_neg (mt hiff.2 hdue), cpuStep, irqChoice_execute hdue]

theorem cpuStep_due (hie : s.status.ie = true) (hirq : irq &&& ~~~s.intMask ≠ 0#8) (hw : s.env.irqWait = 0) :
    cpuStep irq s = .next (enterException .externalInterrupt s) :=
  (cpuStep_eq_ite irq s).trans (if_pos ⟨hie, hirq, hw⟩)

/-- Fetching and executing leaves the model's own counters alone. -/
theorem fetchAndExecute_env (h : fetchAndExecute s = .next t) : t.env = s.env := by
  obtain ⟨w, -, hw⟩ := fetchAndExecute_next h
  rcases executeWord_next hw with ⟨i, -, hi⟩ | ⟨-, rfl⟩
  · exact exec_env hi
  · rfl

/-- A CPU step that keeps a deliverable interrupt waiting shortens its wait by one boundary. -/
theorem cpuStep_irqWait (hi : interruptible irq s = true) (hw : s.env.irqWait ≠ 0) (h : cpuStep irq s = .next u) :
    u.env.irqWait = s.env.irqWait - 1 := by
  rw [cpuStep_eq_ite, if_neg fun ⟨_, _, hzero⟩ => hw hzero] at h
  rw [fetchAndExecute_env h]
  simp [nextIrqWait, hi]

end Sys2Proof.Machine
end

section
/-!
SUPPORT. What the statements about the devices (spec/60_exceptions.md section 7) need: the clocks a timer has to go until it expires,
what the device steps do to the timer and to the UART, and the request lines bit by bit.
-/

namespace Sys2Proof.Machine

variable {s : State} {t : Timer}

/-! ### The timer's count (R225) -/

/-- The clocks after which COUNTER is at EXPR, modulo the wrap of COUNTER. -/
def clocksToGo (t : Timer) : Nat := (t.expr - t.counter).toNat

theorem clocksToGo_of_toNat {n : Nat} (h : t.expr.toNat = t.counter.toNat + n) : clocksToGo t = n := by
  unfold clocksToGo
  bv_omega

theorem counter_add_clocksToGo (t : Timer) : t.counter + BitVec.ofNat 32 (clocksToGo t) = t.expr := by
  rw [clocksToGo, BitVec.ofNat_toNat, BitVec.setWidth_eq, BitVec.add_comm, BitVec.sub_add_cancel]

/-- `k` clocks leave `k` fewer to go. -/
theorem clocksToGo_counted {k : Nat} (hk : k ≤ clocksToGo t) :
    clocksToGo { t with counter := t.counter + BitVec.ofNat 32 k } = clocksToGo t - k := by
  unfold clocksToGo at *
  bv_omega

/-- A started timer counts up, and does nothing else, until COUNTER is at EXPR. -/
theorem timerSteps_counting (hs : t.start = true) (k : Nat) (hk : k ≤ clocksToGo t) :
    timerSteps k t = { t with counter := t.counter + BitVec.ofNat 32 k } := by
  induction k with
  | zero => simp [timerSteps]
  | succ k ih =>
    have hne : t.counter + BitVec.ofNat 32 k ≠ t.expr := by
      unfold clocksToGo at hk
      bv_omega
    rw [timerSteps_add, ih (by omega)]
    calc timerStep { t with counter := t.counter + BitVec.ofNat 32 k }
        = { t with counter := t.counter + BitVec.ofNat 32 k + 1#32 } := timerStep_running hs hne
      _ = { t with counter := t.counter + BitVec.ofNat 32 (k + 1) } := by rw [BitVec.add_assoc, ← BitVec.ofNat_add]

theorem timerSteps_clocksToGo (hs : t.start = true) : timerSteps (clocksToGo t) t = { t with counter := t.expr } := by
  rw [timerSteps_counting hs _ le_rfl, counter_add_clocksToGo]

/-- The clock after those to go expires the timer. -/
theorem timerSteps_succ_clocksToGo (hs : t.start = true) :
    timerSteps (clocksToGo t + 1) t = { t with irq := true, counter := 0#32, start := t.periodic } := by
  rw [timerSteps_add, timerSteps_clocksToGo hs]
  exact timerStep_expired (t := { t with counter := t.expr }) hs rfl

theorem timerSteps_stopped (hs : t.start = false) (n : Nat) : timerSteps n t = t := by
  induction n with
  | zero => rfl
  | succ n ih => rw [timerSteps, timerStep_stopped hs, ih]

/-! ### The device steps and the timer (R225, R269) -/

theorem deviceSteps_timer_stopped (hs : s.timer.start = false) : (deviceSteps s).timer = s.timer := by
  simp [timerAtBoundary, hs]

/-- Device steps are a number of the timer's clocks. -/
theorem deviceSteps_timer_eq_timerSteps (s : State) : ∃ n, (deviceSteps s).timer = timerSteps n s.timer := by
  cases hs : s.timer.start with
  | false => exact ⟨0, deviceSteps_timer_stopped hs⟩
  | true =>
    by_cases hw : s.env.timerWait = 0
    · exact ⟨_, deviceSteps_timer_clocked hs hw⟩
    · exact ⟨0, (deviceSteps_timer_waiting hw).1⟩

/-- A timer that the batch of clocks brings to EXPR before the last of them expires in it. -/
theorem timerExpires_of_clocksToGo_le (hs : s.timer.start = true) (hw : s.env.timerWait = 0)
    (hk : clocksToGo s.timer ≤ Config.timerExtraSteps s.env.clock) : timerExpires s := by
  have hsplit : Config.timerExtraSteps s.env.clock + 1 =
      clocksToGo s.timer + 1 + (Config.timerExtraSteps s.env.clock - clocksToGo s.timer) := by omega
  have hrest := deviceSteps_timer_clocked hs hw
  rw [hsplit, timerSteps_add, timerSteps_succ_clocksToGo hs] at hrest
  refine ⟨hw, _, hk, ?_⟩
  rw [timerSteps_clocksToGo hs]
  exact ⟨hs, rfl, hrest, hrest ▸ timerSteps_irq _ _ rfl⟩

/-- A batch of clocks expires a started timer, or only counts and leaves it that much nearer to its expiration. -/
theorem deviceSteps_timer_expires_or_counts (hs : s.timer.start = true) (hw : s.env.timerWait = 0) :
    timerExpires s ∨ ∃ k, 0 < k ∧ k ≤ clocksToGo s.timer ∧
      (deviceSteps s).timer = { s.timer with counter := s.timer.counter + BitVec.ofNat 32 k } := by
  rcases Nat.lt_or_ge (Config.timerExtraSteps s.env.clock) (clocksToGo s.timer) with hlt | hle
  · exact .inr ⟨_, Nat.succ_pos _, hlt, (deviceSteps_timer_clocked hs hw).trans (timerSteps_counting hs _ hlt)⟩
  · exact .inl (timerExpires_of_clocksToGo_le hs hw hle)

/-- The timer's request after device steps: it stood, or the timer expires. -/
theorem deviceSteps_timer_irq_iff : (deviceSteps s).timer.irq = true ↔ s.timer.irq = true ∨ timerExpires s := by
  constructor
  · intro h
    cases hs : s.timer.start with
    | false => exact .inl (deviceSteps_timer_stopped hs ▸ h)
    | true =>
      by_cases hw : s.env.timerWait = 0
      · rcases deviceSteps_timer_expires_or_counts hs hw with hexp | ⟨k, -, -, hk⟩
        · exact .inr hexp
        · rw [hk] at h
          exact .inl h
      · exact .inl ((deviceSteps_timer_waiting hw).1 ▸ h)
  · rintro (h | ⟨-, k, -, -, -, -, h⟩)
    · obtain ⟨n, hn⟩ := deviceSteps_timer_eq_timerSteps s
      rw [hn]
      exact timerSteps_irq n _ h
    · exact h

/-- A started timer expires at some boundary of a run whose CPU steps leave it alone: at each boundary before, the clocks it has to go
get fewer, or they stay and the wait for the next batch of clocks gets shorter. -/
theorem startedTimer_expires {f : Nat → State}
    (hrun : ∀ k, (f (k + 1)).timer = (deviceSteps (f k)).timer ∧
      (f (k + 1)).env.timerWait = (deviceSteps (f k)).env.timerWait)
    (k : Nat) (hs : (f k).timer.start = true) : ∃ n, timerExpires (f n) := by
  obtain ⟨htimer, hwait⟩ := hrun k
  by_cases hw : (f k).env.timerWait = 0
  · rcases deviceSteps_timer_expires_or_counts hs hw with hexp | ⟨j, hpos, hj, hcounted⟩
    · exact ⟨k, hexp⟩
    · rw [hcounted] at htimer
      have hfewer : clocksToGo (f (k + 1)).timer < clocksToGo (f k).timer := by
        rw [htimer, clocksToGo_counted hj]
        omega
      exact startedTimer_expires hrun (k + 1) (by rw [htimer]; exact hs)
  · obtain ⟨hsame, hshorter⟩ := deviceSteps_timer_waiting hw
    have htimerSame : (f (k + 1)).timer = (f k).timer := htimer.trans hsame
    have hwaitShorter : (f (k + 1)).env.timerWait < (f k).env.timerWait := by omega
    exact startedTimer_expires hrun (k + 1) (htimerSame ▸ hs)
termination_by (clocksToGo (f k).timer, (f k).env.timerWait)
decreasing_by
  · exact Prod.Lex.left _ _ hfewer
  · rw [htimerSame]
    exact Prod.Lex.right _ hwaitShorter

/-! ### The device steps and the UART (R235) -/

/-- The end of a transmission, where there is one, clears it and sets TxI. -/
theorem uartTransmitEnd_if (u : Uart) (ends : Bool) :
    (if u.tx.isSome && ends then uartTransmitEnd u else u) =
      { u with tx := if ends then none else u.tx, txI := u.txI || (u.tx.isSome && ends) } := by
  obtain ⟨txI, rxI, rx, tx⟩ := u
  cases ends with
  | false => simp
  | true => cases tx <;> simp [uartTransmitEnd]

/-- The UART after device steps, register by register: what a received byte and the end of a transmission leave. -/
theorem uartAtBoundary_fields (e : Env) (u : Uart) :
    (uartAtBoundary e u).rx = (Config.uartReceives e.clock).getD u.rx ∧
    (uartAtBoundary e u).rxI = (u.rxI || (Config.uartReceives e.clock).isSome) ∧
    (uartAtBoundary e u).tx = (if Config.uartTransmitEnds e.clock then none else u.tx) ∧
    (uartAtBoundary e u).txI = (u.txI || (u.tx.isSome && Config.uartTransmitEnds e.clock)) := by
  unfold uartAtBoundary
  rw [uartTransmitEnd_if]
  cases Config.uartReceives e.clock <;> simp [uartReceive]

/-! ### The Inout Port (R244, R245) -/

theorem inoutLevel_getLsbD (g : Gpio) {k : Nat} (hk : k < 32) :
    (inoutLevel g).getLsbD k =
      ((g.inoutData.getLsbD k && g.inoutDir.getLsbD k) || (g.inoutPins.getLsbD k && !g.inoutDir.getLsbD k)) := by
  simp only [inoutLevel, BitVec.getLsbD_or, BitVec.getLsbD_and, BitVec.getLsbD_setWidth, BitVec.getLsbD_not, hk,
    decide_true, Bool.true_and]

/-! ### The request lines (R204) -/

@[simp] theorem sourceLevel_constantZero (s : State) : sourceLevel s .constantZero = false := by simp [sourceLevel, beq_eq_decide]
@[simp] theorem sourceLevel_timerI (s : State) : sourceLevel s .timerI = s.timer.irq := by simp [sourceLevel, beq_eq_decide]
@[simp] theorem sourceLevel_uartRxI (s : State) : sourceLevel s .uartRxI = s.uart.rxI := by simp [sourceLevel, beq_eq_decide]
@[simp] theorem sourceLevel_uartTxI (s : State) : sourceLevel s .uartTxI = s.uart.txI := by simp [sourceLevel, beq_eq_decide]

/-- Line `n` has the level of the source that the map gives it. -/
theorem irqLinesOf_getLsbD (map : Fin 8 → IrqSource) (s : State) (n : Fin 8) :
    (irqLinesOf map s).getLsbD n.val = sourceLevel s (map n) := by
  -- `BitVec.getLsbD_append` applies only where the width is written as a sum.
  change BitVec.getLsbD (w := 1 + 1 + 1 + 1 + 1 + 1 + 1 + 1) _ _ = _
  simp only [irqLinesOf, BitVec.getLsbD_append]
  fin_cases n <;> simp

end Sys2Proof.Machine
end

section
/-! SUPPORT. The statements about exceptions, interrupts and devices (spec/60_exceptions.md), settled. -/

namespace Sys2Proof.Machine

/-- Settles O44: device steps leave the control registers alone, an interrupt and an undefined instruction are exception entries, and
in user mode an instruction can only do nothing to the control registers or take its exception. -/
theorem userModeLeavesOnlyByException : Obligations.UserModeLeavesOnlyByException := by
  intro s t huser h
  rcases step_next h with rfl | ⟨i, k, h⟩ | ⟨k, rfl⟩
  · exact ⟨rfl, rfl, .inr (enterException_after_deviceSteps _ _ s)⟩
  · rcases exec_control_cases h with hsame | ⟨_, _, _, -, hkernel, -⟩ | ⟨-, hkernel, -⟩ | ⟨c, -, rfl⟩
    · have ⟨_, _, _, hvec, _, hmask⟩ := hsame
      exact ⟨hvec, hmask, .inl hsame⟩
    · cases hkernel.symm.trans huser
    · cases hkernel.symm.trans huser
    · exact ⟨rfl, rfl, .inr (enterException_after_deviceSteps c k s)⟩
  · exact ⟨rfl, rfl, .inr (enterException_after_deviceSteps _ k s)⟩

/-- Settles O9: the CPU step decides by the condition of R207, and the step is the CPU step after the device steps, which change
neither Status nor Interrupt Mask nor the wait. -/
theorem dueInterruptIsTaken : Obligations.DueInterruptIsTaken := by
  refine ⟨fun irq s hie hirq hwait => ?_, fun s => ⟨entered_enterException _ .externalInterrupt, cpuStep_eq_ite _ _⟩⟩
  exact ⟨_, cpuStep_due hie hirq hwait, entered_enterException s .externalInterrupt⟩

/-- Settles O10: the condition of R207 fails, and `noteWait` changes only the model's counters. -/
theorem heldOffInterruptIsNotTaken : Obligations.HeldOffInterruptIsNotTaken := by
  intro irq s hoff
  refine ⟨_, (cpuStep_eq_ite irq s).trans (if_neg ?_)⟩
  rintro ⟨hie, hirq, -⟩
  rcases hoff with hoff | hmasked
  · cases hie.symm.trans hoff
  · exact hirq hmasked

/-- Settles O11, by induction on the wait: while the interrupt is not taken, the wait at the next boundary is one less. -/
theorem deliverableInterruptIsEventuallyTaken : Obligations.DeliverableInterruptIsEventuallyTaken := by
  intro n
  induction n with
  | zero =>
    intro irqs f hwait hdue _
    obtain ⟨hie, hirq⟩ := hdue 0 le_rfl
    exact ⟨0, le_rfl, cpuStep_due hie hirq (Nat.le_zero.1 hwait)⟩
  | succ n ih =>
    intro irqs f hwait hdue hrun
    obtain ⟨hie, hirq⟩ := hdue 0 (Nat.zero_le _)
    by_cases hw : (f 0).env.irqWait = 0
    · exact ⟨0, Nat.zero_le _, cpuStep_due hie hirq hw⟩
    · obtain ⟨u, hu, hnext⟩ := hrun 0 (Nat.succ_pos n)
      have hshorter : (f (0 + 1)).env.irqWait = (f 0).env.irqWait - 1 := by
        rw [hnext]
        exact cpuStep_irqWait (u := u) (interruptible_iff.2 ⟨hie, hirq⟩) hw hu
      obtain ⟨k, hk, htaken⟩ := ih (fun k => irqs (k + 1)) (fun k => f (k + 1)) (by omega)
        (fun k hk => hdue (k + 1) (by omega)) (fun k hk => hrun (k + 1) (by omega))
      exact ⟨k + 1, by omega, htaken⟩

/-- Settles O40: the entry goes to kernel mode, so EXRT returns, to the Status and the program counter that the entry saved. -/
theorem exrtUndoesExceptionEntry : Obligations.ExrtUndoesExceptionEntry := fun _ _ h4 =>
  ⟨_, exec_exrt_kernel rfl, byteAddr_wordAddr h4, rfl, rfl, fun _ _ => rfl, ⟨fun _ => rfl, rfl⟩, rfl, rfl, rfl, rfl⟩

/-- Settles O45, by what an instruction does to the control registers: Status takes a mode from the written word or from Previous
Status, and else stays in kernel mode. -/
theorem kernelModeLeavesOnlyByWrcrOrExrt : Obligations.KernelModeLeavesOnlyByWrcrOrExrt := by
  intro i s t hkernel h huser
  rcases exec_control_cases h with ⟨hstatus, -⟩ | ⟨ra, cb, u, rfl, -, hu, rfl⟩ | ⟨rfl, -, rfl⟩ | ⟨c, -, rfl⟩
  · cases hkernel.symm.trans (hstatus ▸ huser)
  · rcases writeControl_status hu with ⟨rfl, hstatus⟩ | hstatus
    · rw [advance_status, hstatus] at huser
      exact .inl ⟨ra, rfl, modeOfBit_eq_user.1 huser⟩
    · rw [advance_status, hstatus, hkernel] at huser
      cases huser
  · exact .inr ⟨rfl, huser⟩
  · cases huser

/-- Settles O47: what an instruction does to the control registers, without the two cases of privileged instructions. -/
theorem onlyListedInstructionsRaise : Obligations.OnlyListedInstructionsRaise := by
  intro i s t hi h
  rcases exec_control_cases h with hsame | ⟨_, _, _, rfl, -⟩ | ⟨rfl, -⟩ | hraise
  · exact .inl hsame
  · cases hi
  · cases hi
  · exact .inr hraise

/-- Settles O51: a counter not above EXPR has the difference to go; the timer counts up to EXPR and expires at the next clock. -/
theorem timerExpiresAtItsCount : Obligations.TimerExpiresAtItsCount := by
  intro t n
  refine ⟨fun hs hcount => ?_, fun hs => timerSteps_stopped hs n⟩
  obtain rfl : clocksToGo t = n := clocksToGo_of_toNat hcount
  exact ⟨timerSteps_succ_clocksToGo hs, fun k hk => by rw [timerSteps_counting hs k hk]⟩

/-- Settles O52, by descent on the clocks to go and the wait for the next of them. -/
theorem startedTimerEventuallyExpires : Obligations.StartedTimerEventuallyExpires := by
  intro f hs hrun
  refine startedTimer_expires (fun k => ?_) 0 hs
  obtain ⟨htimer, -, hwait⟩ := hrun k
  exact ⟨htimer, hwait⟩

/-- Settles O53: each line has the level of its source, and the level of a source is its flag. -/
theorem irqLinesShowDeviceFlags : Obligations.IrqLinesShowDeviceFlags := by
  intro s n flag
  have hflag : ∀ source, sourceLevel s source = flag source := by
    intro source
    cases source with
    | constantZero => exact sourceLevel_constantZero s
    | timerI => exact sourceLevel_timerI s
    | uartRxI => exact sourceLevel_uartRxI s
    | uartTxI => exact sourceLevel_uartTxI s
  exact ⟨fun map => (irqLinesOf_getLsbD map s n).trans (hflag _), (irqLinesOf_getLsbD _ s n).trans (hflag _)⟩

/-- Settles O54: the timer by its clocks, the UART register by register. -/
theorem devicesNeverWithdrawRequests : Obligations.DevicesNeverWithdrawRequests := by
  intro s u received
  obtain ⟨hrx : u.rx = received.getD s.uart.rx, hrxI : u.rxI = (s.uart.rxI || received.isSome), htx : u.tx = _,
    htxI : u.txI = _⟩ := uartAtBoundary_fields s.env s.uart
  refine ⟨fun h => deviceSteps_timer_irq_iff.2 (.inl h), deviceSteps_timer_stopped, deviceSteps_timer_eq_timerSteps s,
    deviceSteps_timer_irq_iff, fun h => by rw [hrxI, h, Bool.true_or], fun h => by rw [htxI, h, Bool.true_or],
    ?_, hrx, ?_, ?_, fun h => by simp [htxI, h]⟩
  · rw [hrx, hrxI]
    cases received <;> simp
  · rw [htx, htxI]
    cases Config.uartTransmitEnds s.env.clock <;> cases s.uart.tx <;> simp
  · rw [htx]
    split
    · exact .inr rfl
    · exact .inl rfl

/-- Settles O55, by the direction of the bit and whether it has a pin. -/
theorem inoutPortReadsPinLevels : Obligations.InoutPortReadsPinLevels := by
  intro g k hk
  rw [gpioRead, inoutLevel_getLsbD g hk]
  cases g.inoutDir.getLsbD k with
  | true => simp
  | false =>
    by_cases hpin : k < 16
    · simp [hpin]
    · simp [hpin, BitVec.getLsbD_of_ge g.inoutPins k (by omega)]

/-- Settles O32: the entry sequence is the same for every cause but for the code. -/
theorem exceptionEntrySequence : Obligations.ExceptionEntrySequence := fun s =>
  ⟨entered_enterException s .externalInterrupt, entered_enterException s .undefinedInstruction,
    entered_enterException s .arithmeticOverflow, entered_enterException s .addressMissAlign,
    entered_enterException s .trap, entered_enterException s .privilegeViolation⟩

/-- Settles O49: no device requests anything after reset, so the lines are low whatever the map is; the rest is `State.reset`. -/
theorem resetValues : Obligations.ResetValues :=
  ⟨rfl, rfl, rfl, rfl, rfl, rfl, rfl, rfl, rfl, rfl, rfl, rfl, rfl, rfl, rfl, rfl⟩

end Sys2Proof.Machine
end

section
/-!
SUPPORT. What the statements about reset and the step of the machine (spec/70_reset_and_hazards.md) need: the frame of the device
steps, and the step as the execution of the word that stands at the program counter.
-/

namespace Sys2Proof.Machine

variable {s : State} {w : Word} {i : Instr}

/-! ### The device steps (R269) -/

/-- The device steps leave the CPU and memory alone, whatever the model's own counters are after them. -/
theorem deviceSteps_frame (k : Env) (s : State) :
    let u := { deviceSteps s with env := k }
    u.gpr = s.gpr ∧ u.pc = s.pc ∧ u.pending = s.pending ∧ sameControl s u ∧ sameMemory s u :=
  ⟨rfl, rfl, rfl, ⟨rfl, rfl, rfl, rfl, rfl, rfl⟩, fun _ => rfl, rfl⟩

/-! ### The CPU step (R270) -/

theorem executeWord_instr (h : decodeWord w = .instr i) (s : State) : executeWord w s = exec i s := by
  simp [executeWord, h]

theorem irqChoice_of_disabled (irq : BitVec 8) (h : s.status.ie = false) : irqChoice irq s = .execute := by
  refine irqChoice_execute fun htake => ?_
  obtain ⟨hie, -⟩ := interruptible_iff.1 (irqChoice_take.1 htake).1
  cases hie.symm.trans h

/-- A step that takes no interrupt, from a program counter in ROM or SPM at a word that no STW has written, executes that word in the
state after the device steps. -/
theorem step_word (hexecute : irqChoice (irqLines (deviceSteps s)) (deviceSteps s) = .execute)
    (hpc : inRom s.pc.toNat ∨ inSpm s.pc.toNat) (hstored : s.pc.toNat ∉ s.stored) :
    step s = executeWord (readWord s.mem s.pc.toNat) (noteWait (irqLines (deviceSteps s)) (deviceSteps s)) :=
  (step_of_execute hexecute).trans (fetchAndExecute_word (s := noteWait _ (deviceSteps s)) hpc hstored)

end Sys2Proof.Machine
end

section
/-! SUPPORT. The statements about reset and the step of the machine (spec/70_reset_and_hazards.md), settled. -/

namespace Sys2Proof.Machine

/-- Settles O50: after reset interrupts are disabled, the program counter is 0, which lies in ROM, and no word counts as stored; the
device steps leave all of that alone. -/
theorem firstInstructionAfterReset : Obligations.FirstInstructionAfterReset := by
  intro image
  have hrom : inRom (0#32).toNat := by simp [inRom]
  exact ⟨_, step_word (s := { State.reset with mem := image }) (irqChoice_of_disabled _ rfl) (.inl hrom) List.not_mem_nil,
    rfl, rfl, rfl, rfl, rfl⟩

/-- Settles O6: the step executes the word at the program counter, and the four bytes are that word. -/
theorem stepRunsTheDecodedInstruction : Obligations.StepRunsTheDecodedInstruction := by
  rintro s u i rfl hexecute hpc hstored hbytes
  have hword : decodeWord (readWord s.mem s.pc.toNat) = .instr i := hbytes
  exact ⟨(step_word hexecute hpc hstored).trans (executeWord_instr hword _), deviceSteps_frame _ s⟩

/-- Settles O12: beyond the frame of the device steps, the GPIO block at a boundary changes its pin levels only, and the wait of an
interrupt is not counted there. -/
theorem deviceStepsLeaveCpuAndMemory : Obligations.DeviceStepsLeaveCpuAndMemory := by
  intro s
  obtain ⟨hgpr, hpc, hpending, hcontrol, hmemory⟩ := deviceSteps_frame (deviceSteps s).env s
  exact ⟨hgpr, hpc, hpending, hcontrol, hmemory, rfl, rfl, rfl, rfl⟩

end Sys2Proof.Machine
end
